-- ==== Sys2Proof/Word.lean ====
section
/-!
DEFINITION. The widths of CORE's values: bytes, 16-bit words, and the numbers of registers and keys.
-/

namespace Sys2Proof

/-- One byte: a memory cell, a V register, a timer, a byte immediate (10_state.md R20). -/
abbrev Byte := BitVec 8

/-- A 16-bit value: an instruction word, `I`, `pc`, a stack slot (10_state.md R20, 30_encoding.md R70). -/
abbrev Word := BitVec 16

/-- A 12-bit address immediate `nnn` (30_encoding.md R71). -/
abbrev Imm12 := BitVec 12

/-- The number of a general register, V0 to VF (10_state.md R22). -/
abbrev Reg := Fin 16

/-- The number of a sprite's rows, 0 to 15 (30_encoding.md R71, the field n). -/
abbrev Rows := Fin 16

/-- The index of a logical key, 0x0 to 0xF (10_state.md R31). -/
abbrev Key := Fin 16

/-- VF, which doubles as the carry, borrow and collision flag (10_state.md R23). -/
abbrev VF : Reg := 15

/-- `zext_N(v)` of 00_scope.md R10 for N = 16. -/
abbrev zext16 {n : Nat} (v : BitVec n) : Word := v.setWidth 16

end Sys2Proof
end

