-- ==== Sys2Proof/Config.lean ====
section
/-!
DEFINITION. The implementation parameters of 00_scope.md R7, and the one free value: the random byte.
(The parameter FONT stands in Machine/Font.lean.)
-/

namespace Sys2Proof.Config

/-- MEM_SIZE: bytes of memory, addresses 0x000–0xFFF (00_scope.md R7, 20_memory.md R50). -/
@[simp] abbrev memSize : Nat := 4096

/-- PROG_BASE: where a program is loaded and where `pc` starts (00_scope.md R7, 70_reset_and_hazards.md R251). -/
@[simp] abbrev progBase : Nat := 0x200

/-- MAX_PROG: the largest program image, 4096 − 0x200 bytes (00_scope.md R7, 70_reset_and_hazards.md R253). -/
@[simp] abbrev maxProg : Nat := memSize - progBase

/-- STACK_DEPTH: the return-address slots (00_scope.md R7, 10_state.md R27). -/
@[simp] abbrev stackDepth : Nat := 16

/-- INSN_BYTES: the bytes of every instruction (00_scope.md R7, 30_encoding.md R70). -/
@[simp] abbrev insnBytes : Nat := 2

/-- The random bytes, a FREE VALUE (10_state.md R41, 93_implementation_defined.md U8; log 2): the k-th byte
drawn in a run is `freeByte k`. It has no body here, so no proof can know a value of it: every value 0–255 is
possible at every draw, with no relation between draws. DESIGN CHOICE (the form of the free draw). -/
opaque freeByte : Nat → Byte

end Sys2Proof.Config
end

