-- ==== Sys2Proof/Syntax.lean ====
section
/-!
DEFINITION. The 34 instructions of 30_encoding.md R74, one constructor per row of the opcode map.
Each operand has exactly the width of its field of the word (30_encoding.md R71), so a term that no word
encodes cannot be written.
-/

namespace Sys2Proof

/-- The instructions of 30_encoding.md R74, in that table's order. -/
inductive Instr where
  /-- CLS, 00E0: clear the framebuffer. -/
  | cls
  /-- RET, 00EE: return from a call. -/
  | ret
  /-- JP, 1nnn: jump. -/
  | jp (nnn : Imm12)
  /-- CALL, 2nnn: call a subroutine. -/
  | call (nnn : Imm12)
  /-- SE_VK, 3xkk: skip if V[x] = kk. -/
  | seVk (x : Reg) (kk : Byte)
  /-- SNE_VK, 4xkk: skip if V[x] ≠ kk. -/
  | sneVk (x : Reg) (kk : Byte)
  /-- SE_VV, 5xy0: skip if V[x] = V[y]. -/
  | seVv (x y : Reg)
  /-- LD_VK, 6xkk: load a byte immediate. -/
  | ldVk (x : Reg) (kk : Byte)
  /-- ADD_VK, 7xkk: add a byte immediate, no flag. -/
  | addVk (x : Reg) (kk : Byte)
  /-- LD_VV, 8xy0: copy a register. -/
  | ldVv (x y : Reg)
  /-- OR, 8xy1. -/
  | orVv (x y : Reg)
  /-- AND, 8xy2. -/
  | andVv (x y : Reg)
  /-- XOR, 8xy3. -/
  | xorVv (x y : Reg)
  /-- ADD_VV, 8xy4: add, carry into VF. -/
  | addVv (x y : Reg)
  /-- SUB, 8xy5: V[x] − V[y], not-borrow into VF. -/
  | sub (x y : Reg)
  /-- SHR, 8xy6: shift V[x] right by one; y is in the word but ignored (30_encoding.md R77). -/
  | shr (x y : Reg)
  /-- SUBN, 8xy7: V[y] − V[x], not-borrow into VF. -/
  | subn (x y : Reg)
  /-- SHL, 8xyE: shift V[x] left by one; y is in the word but ignored (30_encoding.md R77). -/
  | shl (x y : Reg)
  /-- SNE_VV, 9xy0: skip if V[x] ≠ V[y]. -/
  | sneVv (x y : Reg)
  /-- LD_I, Annn: load the index register. -/
  | ldI (nnn : Imm12)
  /-- JP_V0, Bnnn: jump to nnn plus V0. -/
  | jpV0 (nnn : Imm12)
  /-- RND, Cxkk: random byte AND kk. -/
  | rnd (x : Reg) (kk : Byte)
  /-- DRW, Dxyn: draw an n-row sprite. -/
  | drw (x y : Reg) (n : Rows)
  /-- SKP, Ex9E: skip if the key V[x] is pressed. -/
  | skp (x : Reg)
  /-- SKNP, ExA1: skip if the key V[x] is not pressed. -/
  | sknp (x : Reg)
  /-- LD_V_DT, Fx07: read the delay timer. -/
  | ldVDt (x : Reg)
  /-- LD_V_K, Fx0A: wait for a key, by polling. -/
  | ldVKey (x : Reg)
  /-- LD_DT_V, Fx15: write the delay timer. -/
  | ldDtV (x : Reg)
  /-- LD_ST_V, Fx18: write the sound timer. -/
  | ldStV (x : Reg)
  /-- ADD_I_V, Fx1E: add a register to the index. -/
  | addIV (x : Reg)
  /-- LD_F_V, Fx29: point the index at a font glyph. -/
  | ldFV (x : Reg)
  /-- LD_B_V, Fx33: store the decimal digits of a register. -/
  | ldBV (x : Reg)
  /-- LD_MEM_V, Fx55: store V0..V[x]. -/
  | ldMemV (x : Reg)
  /-- LD_V_MEM, Fx65: load V0..V[x]. -/
  | ldVMem (x : Reg)
  deriving DecidableEq, Repr

end Sys2Proof
end

