-- ==== Sys2Proof/WellFormed.lean ====
section
/-!
DEFINITION. What may stand where: which 16-bit words are instructions (the match and mask of
30_encoding.md R74, independent of the decoder), and which program images may be loaded
(70_reset_and_hazards.md R253). A term of `Instr` needs no check of its own: every operand has exactly the
width of its field, and every value of every field is legal (30_encoding.md R73, R76).
-/

namespace Sys2Proof

/-- One row of the opcode map of 30_encoding.md R74: its name, match and mask. -/
structure OpcodeRow where
  mnemonic : String
  mtch : Word
  mask : Word
  deriving DecidableEq, Repr

/-- "A word matches a row when (w & mask) == match" (30_encoding.md R74). -/
def OpcodeRow.hits (r : OpcodeRow) (w : Word) : Bool := (w &&& r.mask) == r.mtch

/-- Rows of 30_encoding.md R74: control flow (41_control_flow.md) and words without operands. -/
def rowsControl : List OpcodeRow :=
  [ ⟨"CLS", 0x00E0, 0xFFFF⟩
  , ⟨"RET", 0x00EE, 0xFFFF⟩
  , ⟨"JP", 0x1000, 0xF000⟩
  , ⟨"CALL", 0x2000, 0xF000⟩
  , ⟨"SE_VK", 0x3000, 0xF000⟩
  , ⟨"SNE_VK", 0x4000, 0xF000⟩
  , ⟨"SE_VV", 0x5000, 0xF00F⟩ ]

/-- Rows of 30_encoding.md R74: register loads and the ALU (42_register_alu.md). -/
def rowsAlu : List OpcodeRow :=
  [ ⟨"LD_VK", 0x6000, 0xF000⟩
  , ⟨"ADD_VK", 0x7000, 0xF000⟩
  , ⟨"LD_VV", 0x8000, 0xF00F⟩
  , ⟨"OR", 0x8001, 0xF00F⟩
  , ⟨"AND", 0x8002, 0xF00F⟩
  , ⟨"XOR", 0x8003, 0xF00F⟩
  , ⟨"ADD_VV", 0x8004, 0xF00F⟩
  , ⟨"SUB", 0x8005, 0xF00F⟩
  , ⟨"SHR", 0x8006, 0xF00F⟩
  , ⟨"SUBN", 0x8007, 0xF00F⟩
  , ⟨"SHL", 0x800E, 0xF00F⟩
  , ⟨"SNE_VV", 0x9000, 0xF00F⟩ ]

/-- Rows of 30_encoding.md R74: index, random and display. -/
def rowsIndexDisplayKeys : List OpcodeRow :=
  [ ⟨"LD_I", 0xA000, 0xF000⟩
  , ⟨"JP_V0", 0xB000, 0xF000⟩
  , ⟨"RND", 0xC000, 0xF000⟩
  , ⟨"DRW", 0xD000, 0xF000⟩
  , ⟨"SKP", 0xE09E, 0xF0FF⟩
  , ⟨"SKNP", 0xE0A1, 0xF0FF⟩ ]

/-- Rows of 30_encoding.md R74: the Fx family. -/
def rowsF : List OpcodeRow :=
  [ ⟨"LD_V_DT", 0xF007, 0xF0FF⟩
  , ⟨"LD_V_K", 0xF00A, 0xF0FF⟩
  , ⟨"LD_DT_V", 0xF015, 0xF0FF⟩
  , ⟨"LD_ST_V", 0xF018, 0xF0FF⟩
  , ⟨"ADD_I_V", 0xF01E, 0xF0FF⟩
  , ⟨"LD_F_V", 0xF029, 0xF0FF⟩
  , ⟨"LD_B_V", 0xF033, 0xF0FF⟩
  , ⟨"LD_MEM_V", 0xF055, 0xF0FF⟩
  , ⟨"LD_V_MEM", 0xF065, 0xF0FF⟩ ]
/-- The complete opcode map of 30_encoding.md R74, 34 rows in its order. -/
def opcodeTable : List OpcodeRow := rowsControl ++ rowsAlu ++ rowsIndexDisplayKeys ++ rowsF

/-- A word is an instruction when some row of the opcode map matches it; every other word is an illegal
encoding (30_encoding.md R74, R76). -/
def wordWellFormed (w : Word) : Bool := opcodeTable.any (·.hits w)

/-- The mnemonic of an instruction, the name column of 30_encoding.md R74. -/
def Instr.mnemonic : Instr → String
  | .cls => "CLS"
  | .ret => "RET"
  | .jp _ => "JP"
  | .call _ => "CALL"
  | .seVk _ _ => "SE_VK"
  | .sneVk _ _ => "SNE_VK"
  | .seVv _ _ => "SE_VV"
  | .ldVk _ _ => "LD_VK"
  | .addVk _ _ => "ADD_VK"
  | .ldVv _ _ => "LD_VV"
  | .orVv _ _ => "OR"
  | .andVv _ _ => "AND"
  | .xorVv _ _ => "XOR"
  | .addVv _ _ => "ADD_VV"
  | .sub _ _ => "SUB"
  | .shr _ _ => "SHR"
  | .subn _ _ => "SUBN"
  | .shl _ _ => "SHL"
  | .sneVv _ _ => "SNE_VV"
  | .ldI _ => "LD_I"
  | .jpV0 _ => "JP_V0"
  | .rnd _ _ => "RND"
  | .drw _ _ _ => "DRW"
  | .skp _ => "SKP"
  | .sknp _ => "SKNP"
  | .ldVDt _ => "LD_V_DT"
  | .ldVKey _ => "LD_V_K"
  | .ldDtV _ => "LD_DT_V"
  | .ldStV _ => "LD_ST_V"
  | .addIV _ => "ADD_I_V"
  | .ldFV _ => "LD_F_V"
  | .ldBV _ => "LD_B_V"
  | .ldMemV _ => "LD_MEM_V"
  | .ldVMem _ => "LD_V_MEM"

/-- A program image may be loaded when its length is at most 4096 − 0x200 = 3584 bytes
(70_reset_and_hazards.md R253). -/
def imageFits (img : List Byte) : Bool := img.length ≤ Config.maxProg

end Sys2Proof
end

