-- ==== Sys2Proof/Decode.lean ====
section
/-!
DEFINITION. Decoding (30_encoding.md R71, R75, R76), the encoder, and the host's view of a table word.
-/

namespace Sys2Proof

/-- Why a word or a run of bytes is no instruction: one name per illegal space of 30_encoding.md R76, and
`truncated` for fewer than two bytes. -/
inductive Illegal where
  /-- 0nnn other than 00E0 and 00EE. -/
  | family0
  /-- 5xyN with N ≠ 0. -/
  | family5
  /-- 8xyN with N in 8, 9, A, B, C, D, F (also 42_register_alu.md R151). -/
  | family8
  /-- 9xyN with N ≠ 0. -/
  | family9
  /-- Exkk with kk not 9E or A1. -/
  | familyE
  /-- Fxkk with kk none of 07, 0A, 15, 18, 1E, 29, 33, 55, 65. -/
  | familyF
  /-- Fewer than two bytes: no word to decode. -/
  | truncated
  deriving DecidableEq, Repr

/-! ### Operand fields, 30_encoding.md R71 -/

/-- The register (or row count) a 4-bit field names. -/
def regOfBits (b : BitVec 4) : Reg := b.toFin

/-- The 4-bit field that names a register (or row count). -/
def bitsOfReg (r : Reg) : BitVec 4 := BitVec.ofFin r

/-- op = w[15:12], the opcode family. -/
def opField (w : Word) : BitVec 4 := w.extractLsb' 12 4

/-- x = w[11:8]. -/
def xField (w : Word) : Reg := regOfBits (w.extractLsb' 8 4)

/-- y = w[7:4]. -/
def yField (w : Word) : Reg := regOfBits (w.extractLsb' 4 4)

/-- n = w[3:0], as the bits that select a sub-operation. -/
def nBits (w : Word) : BitVec 4 := w.extractLsb' 0 4

/-- n = w[3:0], as a row count. -/
def nField (w : Word) : Rows := regOfBits (nBits w)

/-- kk = w[7:0]. -/
def kkField (w : Word) : Byte := w.extractLsb' 0 8

/-- nnn = w[11:0]. -/
def nnnField (w : Word) : Imm12 := w.extractLsb' 0 12

/-! ### Decoding, 30_encoding.md R75 -/

/-- Family 0: only the exact words 00E0 and 00EE. -/
def decode0 (w : Word) : Except Illegal Instr :=
  if w = 0x00E0 then .ok .cls
  else if w = 0x00EE then .ok .ret
  else .error .family0

/-- Family 8: the low nibble selects the operation. -/
def decode8 (w : Word) : Except Illegal Instr :=
  let x := xField w
  let y := yField w
  match nBits w with
  | 0x0 => .ok (.ldVv x y)
  | 0x1 => .ok (.orVv x y)
  | 0x2 => .ok (.andVv x y)
  | 0x3 => .ok (.xorVv x y)
  | 0x4 => .ok (.addVv x y)
  | 0x5 => .ok (.sub x y)
  | 0x6 => .ok (.shr x y)
  | 0x7 => .ok (.subn x y)
  | 0xE => .ok (.shl x y)
  | _ => .error .family8

/-- Family E: the low byte selects the operation. -/
def decodeE (w : Word) : Except Illegal Instr :=
  match kkField w with
  | 0x9E => .ok (.skp (xField w))
  | 0xA1 => .ok (.sknp (xField w))
  | _ => .error .familyE

/-- Family F: the low byte selects the operation. -/
def decodeF (w : Word) : Except Illegal Instr :=
  let x := xField w
  match kkField w with
  | 0x07 => .ok (.ldVDt x)
  | 0x0A => .ok (.ldVKey x)
  | 0x15 => .ok (.ldDtV x)
  | 0x18 => .ok (.ldStV x)
  | 0x1E => .ok (.addIV x)
  | 0x29 => .ok (.ldFV x)
  | 0x33 => .ok (.ldBV x)
  | 0x55 => .ok (.ldMemV x)
  | 0x65 => .ok (.ldVMem x)
  | _ => .error .familyF

/-- The decoder of 30_encoding.md R75: total on 16-bit words, rejecting by name. -/
def decode (w : Word) : Except Illegal Instr :=
  match opField w with
  | 0x0 => decode0 w
  | 0x1 => .ok (.jp (nnnField w))
  | 0x2 => .ok (.call (nnnField w))
  | 0x3 => .ok (.seVk (xField w) (kkField w))
  | 0x4 => .ok (.sneVk (xField w) (kkField w))
  | 0x5 => if nBits w = 0 then .ok (.seVv (xField w) (yField w)) else .error .family5
  | 0x6 => .ok (.ldVk (xField w) (kkField w))
  | 0x7 => .ok (.addVk (xField w) (kkField w))
  | 0x8 => decode8 w
  | 0x9 => if nBits w = 0 then .ok (.sneVv (xField w) (yField w)) else .error .family9
  | 0xA => .ok (.ldI (nnnField w))
  | 0xB => .ok (.jpV0 (nnnField w))
  | 0xC => .ok (.rnd (xField w) (kkField w))
  | 0xD => .ok (.drw (xField w) (yField w) (nField w))
  | 0xE => decodeE w
  | _ => decodeF w

/-- An instruction's word from its two bytes, the first at the lower address: big-endian
(20_memory.md R54, 30_encoding.md R70). -/
def wordOfBytes (hi lo : Byte) : Word := hi ++ lo

/-- The byte an instruction's word stores at the lower address: bits 15:8 (20_memory.md R54). -/
def highByte (w : Word) : Byte := w.extractLsb' 8 8

/-- The byte an instruction's word stores at the higher address: bits 7:0 (20_memory.md R54). -/
def lowByte (w : Word) : Byte := w.extractLsb' 0 8

/-- The decoder over bytes: the instruction in the first two, and the bytes that follow it. -/
def decodeBytes : List Byte → Except Illegal (Instr × List Byte)
  | hi :: lo :: rest =>
    match decode (wordOfBytes hi lo) with
    | .ok i => .ok (i, rest)
    | .error e => .error e
  | _ => .error .truncated

/-! ### Encoding: the layouts of 30_encoding.md R72 with the patterns of R74 -/

/-- Format A: op / nnn. -/
def wordA (op : BitVec 4) (nnn : Imm12) : Word := op ++ nnn

/-- Formats XK and X: op / x / kk (for X the byte is the selector). -/
def wordXK (op : BitVec 4) (x : Reg) (kk : Byte) : Word := op ++ bitsOfReg x ++ kk

/-- Formats XY and XYN: op / x / y / sub or n. -/
def wordXY (op : BitVec 4) (x y : Reg) (n : BitVec 4) : Word := op ++ bitsOfReg x ++ bitsOfReg y ++ n

/-- The word of an instruction (30_encoding.md R72, R74). -/
def encode : Instr → Word
  | .cls => 0x00E0
  | .ret => 0x00EE
  | .jp nnn => wordA 0x1 nnn
  | .call nnn => wordA 0x2 nnn
  | .seVk x kk => wordXK 0x3 x kk
  | .sneVk x kk => wordXK 0x4 x kk
  | .seVv x y => wordXY 0x5 x y 0x0
  | .ldVk x kk => wordXK 0x6 x kk
  | .addVk x kk => wordXK 0x7 x kk
  | .ldVv x y => wordXY 0x8 x y 0x0
  | .orVv x y => wordXY 0x8 x y 0x1
  | .andVv x y => wordXY 0x8 x y 0x2
  | .xorVv x y => wordXY 0x8 x y 0x3
  | .addVv x y => wordXY 0x8 x y 0x4
  | .sub x y => wordXY 0x8 x y 0x5
  | .shr x y => wordXY 0x8 x y 0x6
  | .subn x y => wordXY 0x8 x y 0x7
  | .shl x y => wordXY 0x8 x y 0xE
  | .sneVv x y => wordXY 0x9 x y 0x0
  | .ldI nnn => wordA 0xA nnn
  | .jpV0 nnn => wordA 0xB nnn
  | .rnd x kk => wordXK 0xC x kk
  | .drw x y n => wordXY 0xD x y (bitsOfReg n)
  | .skp x => wordXK 0xE x 0x9E
  | .sknp x => wordXK 0xE x 0xA1
  | .ldVDt x => wordXK 0xF x 0x07
  | .ldVKey x => wordXK 0xF x 0x0A
  | .ldDtV x => wordXK 0xF x 0x15
  | .ldStV x => wordXK 0xF x 0x18
  | .addIV x => wordXK 0xF x 0x1E
  | .ldFV x => wordXK 0xF x 0x29
  | .ldBV x => wordXK 0xF x 0x33
  | .ldMemV x => wordXK 0xF x 0x55
  | .ldVMem x => wordXK 0xF x 0x65

/-- The two bytes of an instruction as the hardware stores them (20_memory.md R54). -/
def encodeBytes (i : Instr) : List Byte := [highByte (encode i), lowByte (encode i)]

/-! ### The host's view of a row of the opcode table -/

/-- The 16-bit word that the low `nbits` bits of `w` make, every bit above them 0. -/
def tableWord (nbits w : Nat) : Word := BitVec.ofNat 16 (w % 2 ^ nbits)

/-- The instruction the decoder reads from the bytes of a table word, laid out as the hardware stores
them: the word's high byte first. -/
def decodeTableWord (nbits w : Nat) : Option Instr :=
  match decodeBytes [highByte (tableWord nbits w), lowByte (tableWord nbits w)] with
  | .ok (i, _) => some i
  | .error _ => none

end Sys2Proof
end

