-- ==== Sys2Proof/Machine/Font.lean ====
section
/-!
DEFINITION. The parameter FONT with its default value (10_state.md R32). PRESUMED: the spec takes the 80
values from general knowledge (D21; log 3).
-/

namespace Sys2Proof.Machine

/-- The glyphs of the digits 0 to 7, five bytes each (10_state.md R32). -/
def fontLow : List Byte :=
  [ 0xF0, 0x90, 0x90, 0x90, 0xF0
  , 0x20, 0x60, 0x20, 0x20, 0x70
  , 0xF0, 0x10, 0xF0, 0x80, 0xF0
  , 0xF0, 0x10, 0xF0, 0x10, 0xF0
  , 0x90, 0x90, 0xF0, 0x10, 0x10
  , 0xF0, 0x80, 0xF0, 0x10, 0xF0
  , 0xF0, 0x80, 0xF0, 0x90, 0xF0
  , 0xF0, 0x10, 0x20, 0x40, 0x40 ]

/-- The glyphs of the digits 8 to F, five bytes each (10_state.md R32). -/
def fontHigh : List Byte :=
  [ 0xF0, 0x90, 0xF0, 0x90, 0xF0
  , 0xF0, 0x90, 0xF0, 0x10, 0xF0
  , 0xF0, 0x90, 0xF0, 0x90, 0x90
  , 0xE0, 0x90, 0xE0, 0x90, 0xE0
  , 0xF0, 0x80, 0x80, 0x80, 0xF0
  , 0xE0, 0x90, 0x90, 0x90, 0xE0
  , 0xF0, 0x80, 0xF0, 0x80, 0xF0
  , 0xF0, 0x80, 0xF0, 0x80, 0x80 ]

/-- FONT: the 80 bytes at addresses 0x000–0x04F after reset. -/
def font : List Byte := fontLow ++ fontHigh

end Sys2Proof.Machine
end

