-- ==== Sys2Proof/Machine/State.lean ====
section
/-!
DEFINITION. The state of CORE (10_state.md R20), its faults (60_exceptions.md R220), the refusals of the
model, and the state after reset (10_state.md R34).
-/

namespace Sys2Proof.Machine

/-- The six faults of 60_exceptions.md R220. A step or a load that raises one answers a NEXT state whose
STATUS records it (R222); every later step answers this fault as its outcome and changes nothing
(40_step_cycle.md R108), until reset. All are SAFE: the machine stops exactly where the spec stops (log 1). -/
inductive Fault where
  /-- Code 1. Raised by the load port for an image of more than 3584 bytes (70_reset_and_hazards.md R254). Safe. -/
  | programTooLarge
  /-- Code 2. Raised by 2nnn when SP = 16 (41_control_flow.md R122). Safe. -/
  | stackOverflow
  /-- Code 3. Raised by 00EE when SP = 0 (41_control_flow.md R120). Safe. -/
  | stackUnderflow
  /-- Code 4. Raised by the fetch, Dxyn, Fx33, Fx55 and Fx65 when base + extent > 4096 (20_memory.md R53). Safe. -/
  | memoryOutOfRange
  /-- Code 5. Raised by the decode of a word that matches no row (30_encoding.md R76). Safe (log 7). -/
  | illegalInstruction
  /-- Code 6. Raised by Ex9E and ExA1 when V[x] > 15 (45_timers_keys.md R204). Safe (log 6). -/
  | keyIndexOutOfRange
  deriving DecidableEq, Repr

/-- What the model does not do. -/
inductive Refusal where
  /-- Raised by an arm of `exec` whose instruction has no meaning yet. Safe. (No arm does: all 34 have one.) -/
  | notModelled (mnemonic : String)
  /-- Raised by the host's load port for a load after the first step or a second load after one reset:
  "outside this spec. The host must not issue either, and a model refuses them" (70_reset_and_hazards.md
  R253). Safe (log 16). -/
  | loadNotAdmitted
  deriving DecidableEq, Repr

/-- STATUS: RUN, or FAULT(f) (10_state.md R38). -/
inductive Status where
  | run
  | fault (f : Fault)
  deriving DecidableEq, Repr

/-- Memory as the bytes that differ from what reset leaves: (address, byte) pairs in the canonical form
`Memory.wf` of Machine/Ops.lean (log 18). -/
abbrev Memory := List Host.Cell

/-- The 64×32 grid of 1-bit pixels, `FB[r][c]` with row r in 0..31 and column c in 0..63
(10_state.md R30); `true` is on. -/
abbrev Framebuffer := Vector (Vector Bool 64) 32

/-- The architectural state of CORE, field by field under the names of 10_state.md R20, and the model's own
field `draws`. -/
structure State where
  /-- 4096 bytes, addresses 0x000–0xFFF. -/
  mem : Memory
  /-- V0–VF (R22). -/
  V : Vector Byte 16
  /-- The index register (R25). -/
  I : Word
  /-- The program counter (R26). -/
  pc : Word
  /-- The return-address slots S[0]–S[15] (R27). -/
  S : Vector Word 16
  /-- The stack pointer, a number 0–16 (R27). -/
  SP : Fin 17
  /-- The delay timer (R29). -/
  DT : Byte
  /-- The sound timer (R29). -/
  ST : Byte
  /-- The framebuffer (R30). -/
  FB : Framebuffer
  /-- The key state, `true` is pressed (R31). -/
  KEY : Vector Bool 16
  /-- RUN or FAULT(f) (R38). -/
  STATUS : Status
  /-- The MODEL'S OWN field, no state of CORE: how many free random bytes Cxkk has drawn (R41; log 2). -/
  draws : Nat
  deriving DecidableEq, Repr

/-- Every pixel off. -/
def Framebuffer.allOff : Framebuffer := Vector.replicate 32 (Vector.replicate 64 false)

/-- The state after reset (10_state.md R34, 70_reset_and_hazards.md R250). Memory lists nothing, so that
every byte reads as reset leaves it: the font, then zeros. `draws` is 0 by DESIGN CHOICE (log 2). -/
def State.reset : State where
  mem := []
  V := Vector.replicate 16 0
  I := 0
  pc := 0x0200
  S := Vector.replicate 16 0
  SP := 0
  DT := 0
  ST := 0
  FB := Framebuffer.allOff
  KEY := Vector.replicate 16 false
  STATUS := .run
  draws := 0

end Sys2Proof.Machine
end

