-- ==== Sys2Proof/Machine/Ops.lean ====
section
/-!
DEFINITION. The shared operations over memory, registers, the program counter, the stack and the timers, and
taking a fault.
-/

namespace Sys2Proof.Machine

/-- What an instruction's meaning answers. -/
abbrev Result := Host.Outcome State Fault Refusal

/-! ### Memory (20_memory.md) -/

/-- What an address holds that nothing has written since reset: the font at 0x000–0x04F, zero above
(10_state.md R34). -/
def resetByte (a : Nat) : Byte := font.getD a 0

/-- The byte at address `a`. Every caller checks the range first (20_memory.md R53). -/
def Memory.read : Memory → Nat → Byte
  | [], a => resetByte a
  | (b, v) :: m, a => if a = b then v else Memory.read m a

/-- Put a cell in its place by address. -/
def Memory.insertCell (a : Nat) (v : Byte) : Memory → Memory
  | [] => [(a, v)]
  | (b, u) :: m => if a < b then (a, v) :: (b, u) :: m else (b, u) :: Memory.insertCell a v m

/-- Remove every cell at address `a`. -/
def Memory.eraseCell (a : Nat) : Memory → Memory
  | [] => []
  | (b, u) :: m => if a = b then Memory.eraseCell a m else (b, u) :: Memory.eraseCell a m

/-- Store one byte, keeping the canonical form: a byte equal to what reset leaves there is not listed. -/
def Memory.write (m : Memory) (a : Nat) (v : Byte) : Memory :=
  if v = resetByte a then m.eraseCell a else (m.eraseCell a).insertCell a v

/-- `MemRead(a, n)` of 00_scope.md R11: the n bytes from address `a` up. -/
def Memory.readBytes (m : Memory) (a : Nat) : Nat → List Byte
  | 0 => []
  | n + 1 => m.read a :: m.readBytes (a + 1) n

/-- `MemWrite(a, n, bs)` of 00_scope.md R11: the bytes of `bs` from address `a` up. -/
def Memory.writeBytes (m : Memory) (a : Nat) : List Byte → Memory
  | [] => m
  | b :: bs => (m.write a b).writeBytes (a + 1) bs

/-- The canonical form from address `lo` up: addresses strictly rising, all below 4096, and no cell equal to
what reset leaves at its address. -/
def Memory.wfFrom (lo : Nat) : Memory → Bool
  | [] => true
  | (a, v) :: m => lo ≤ a && a < Config.memSize && v != resetByte a && Memory.wfFrom (a + 1) m

/-- The canonical form of memory (log 18). -/
def Memory.wf (m : Memory) : Bool := m.wfFrom 0

/-- The range check of 20_memory.md R53, in exact arithmetic on the full 16-bit base: `true` when the `ext`
bytes at `base` are all inside memory, that is when base + ext > 4096 does not hold. -/
def inRange (base : Word) (ext : Nat) : Bool := base.toNat + ext ≤ Config.memSize

/-! ### Taking a fault (60_exceptions.md R222) -/

/-- The code of a fault (60_exceptions.md R220). -/
def Fault.code : Fault → Nat
  | .programTooLarge => 1
  | .stackOverflow => 2
  | .stackUnderflow => 3
  | .memoryOutOfRange => 4
  | .illegalInstruction => 5
  | .keyIndexOutOfRange => 6

/-- The number of a STATUS: 0 stands for RUN (60_exceptions.md R220). -/
def Status.code : Status → Nat
  | .run => 0
  | .fault f => f.code

/-- Taking a fault (60_exceptions.md R222): `s` is the state at the start of the step, so every effect of the
step is discarded; STATUS <- FAULT(f). There is no vector, handler, saved register or mode. There is no return
from it (60_exceptions.md R225): only reset leaves STATUS = FAULT(f). -/
def takeFault (f : Fault) (s : State) : Result := .next { s with STATUS := .fault f }

/-- A step that is invoked while STATUS = FAULT(f) changes nothing and returns FAULT(f) again
(40_step_cycle.md R108, 60_exceptions.md R225): the machine is stopped. -/
def stepWhileFaulted (f : Fault) (_s : State) : Result := .fault f

/-- The range check that precedes every effect of an instruction (20_memory.md R53). -/
def checkRange (base : Word) (ext : Nat) (s : State) (k : Result) : Result :=
  if inRange base ext then k else takeFault .memoryOutOfRange s

/-! ### Registers -/

/-- `V[x] <- b` (00_scope.md R9). No register is hard-wired (10_state.md R22). -/
def State.setV (s : State) (x : Reg) (b : Byte) : State := { s with V := s.V.set x b }

/-! ### The program counter (40_step_cycle.md R106) -/

/-- advance: pc <- pc + 2. -/
def State.advance (s : State) : State := { s with pc := s.pc + 2 }

/-- skip: pc <- pc + 4 if the condition holds, else pc + 2 (41_control_flow.md R124). -/
def State.skipIf (c : Bool) (s : State) : State := { s with pc := if c then s.pc + 4 else s.pc + 2 }

/-- transfer: pc <- target, with no + 2. -/
def State.transfer (target : Word) (s : State) : State := { s with pc := target }

/-! ### The call stack (10_state.md R27) -/

/-- Push a return address: S[SP] <- a, then SP <- SP + 1; `none` when the stack is full
(41_control_flow.md R122). -/
def State.push (a : Word) (s : State) : Option State :=
  if h : s.SP.val < 16 then
    some { s with S := s.S.set s.SP.val a h, SP := ⟨s.SP.val + 1, by omega⟩ }
  else none

/-- Pop: SP <- SP - 1 and the slot S[SP] with it, which is not cleared (10_state.md R28); `none` when the
stack is empty (41_control_flow.md R120). -/
def State.pop (s : State) : Option (Word × State) :=
  if h : s.SP.val = 0 then none
  else
    have hlt : s.SP.val - 1 < 16 := by have := s.SP.isLt; omega
    some (s.S[s.SP.val - 1], { s with SP := ⟨s.SP.val - 1, by omega⟩ })

/-! ### The timer tick (40_step_cycle.md R107) -/

/-- One count toward zero, never below it. -/
def countDown (t : Byte) : Byte := if t = 0 then 0 else t - 1

/-- The tick: each nonzero timer minus 1. -/
def State.tick (s : State) : State := { s with DT := countDown s.DT, ST := countDown s.ST }

/-- The end of a step (40_step_cycle.md R100): the tick after a step that did not fault, nothing after one
that did. -/
def State.endStep (s : State) : State :=
  match s.STATUS with
  | .run => s.tick
  | .fault _ => s

/-- What a step makes of what its instruction answers. -/
def completeStep : Result → Result
  | .next t => .next t.endStep
  | .fault f => .fault f
  | .refused r => .refused r

/-! ### The random byte (10_state.md R41) -/

/-- The random byte of a step that draws one: a free value (log 2). -/
def State.rnd (s : State) : Byte := Config.freeByte s.draws

/-- The draw is used up: the next one is another free value. -/
def State.drawn (s : State) : State := { s with draws := s.draws + 1 }

end Sys2Proof.Machine
end

