-- ==== Sys2Proof/Machine/Operands.lean ====
section
/-!
DEFINITION. The operand forms: register values latched at the start of execute (40_step_cycle.md R104), key
indices, the block V0..V[x], decimal digits, and sprite geometry.
-/

namespace Sys2Proof.Machine

/-- `V[x]` as it stands at the start of execute (00_scope.md R9, 40_step_cycle.md R104). -/
def State.reg (s : State) (x : Reg) : Byte := s.V[x]

/-! ### Keys (45_timers_keys.md R204) -/

/-- The key a value names: its index when it is at most 15, `none` above. -/
def keyOfValue (v : Byte) : Option Key := if h : v.toNat < 16 then some ⟨v.toNat, h⟩ else none

/-- The lowest pressed key, if any is pressed (45_timers_keys.md R205). -/
def lowestPressed (keys : Vector Bool 16) : Option Key := (List.finRange 16).find? (fun k => keys[k])

/-! ### The block V0..V[x] (43_index_memory.md R174, R175) -/

/-- The extent of the block V0..V[x], x + 1 bytes (20_memory.md R52). -/
def blockExtent (x : Reg) : Nat := x.val + 1

/-- The values of V0..V[x], V0 first. -/
def State.block (s : State) (x : Reg) : List Byte := s.V.toList.take (blockExtent x)

/-- V[i] <- bs[i] for i in 0..x, from register number `j` on. -/
def State.setBlockFrom (s : State) (j : Nat) : List Byte → State
  | [] => s
  | b :: bs => (if h : j < 16 then s.setV ⟨j, h⟩ b else s).setBlockFrom (j + 1) bs

/-! ### Decimal digits (43_index_memory.md R173) -/

/-- The hundreds, tens and ones of a byte. -/
def decimalDigits (v : Byte) : List Byte := [v / 100, (v / 10) % 10, v % 10]

/-- The address of a value's font glyph: V[x] * 5, the whole register (43_index_memory.md R172). -/
def glyphAddress (v : Byte) : Word := zext16 v * 5

/-! ### Sprite geometry (44_display.md R191) -/

/-- The row of sprite row j drawn at Y: (Y + j) mod 32. -/
def pixelRow (Y : Byte) (j : Nat) : Fin 32 := Fin.ofNat 32 (Y.toNat + j)

/-- The column of bit offset i drawn at X: (X + i) mod 64. -/
def pixelColumn (X : Byte) (i : Nat) : Fin 64 := Fin.ofNat 64 (X.toNat + i)

/-- Bit offset i of a row byte: bit 7 − i, so that bit 7 is the leftmost pixel (44_display.md R191; log 5). -/
def spriteBit (row : Byte) (i : Nat) : Bool := row.getLsbD (7 - i)

/-- The pixel FB[r][c]. -/
def Framebuffer.get (fb : Framebuffer) (r : Fin 32) (c : Fin 64) : Bool := fb[r][c]

/-- FB[r][c] <- b. -/
def Framebuffer.put (fb : Framebuffer) (r : Fin 32) (c : Fin 64) (b : Bool) : Framebuffer :=
  fb.set r (fb[r].set c b)

end Sys2Proof.Machine
end

