-- ==== Sys2Proof/Machine/Flags.lean ====
section
/-!
DEFINITION. The values instructions write to VF as a flag (10_state.md R24), and the writing of a result and a
flag: V[x] first, VF last (40_step_cycle.md R105).
-/

namespace Sys2Proof.Machine

/-- A flag as VF holds it: 1 or 0. -/
def flagByte (b : Bool) : Byte := if b then 1 else 0

/-- The carry of 8xy4: 1 if a + b > 255 (42_register_alu.md R146). -/
def carryFlag (a b : Byte) : Byte := flagByte (a.toNat + b.toNat > 255)

/-- The not-borrow of 8xy5 and 8xy7: 1 if the minuend is strictly greater (42_register_alu.md R147, R149;
log 8). -/
def notBorrowFlag (minuend subtrahend : Byte) : Byte := flagByte (minuend > subtrahend)

/-- The bit a right shift drops: bit 0 (42_register_alu.md R148). -/
def droppedLowFlag (a : Byte) : Byte := flagByte (a.getLsbD 0)

/-- The bit a left shift drops: bit 7 (42_register_alu.md R150). -/
def droppedHighFlag (a : Byte) : Byte := flagByte (a.getLsbD 7)

/-- V[x] <- result, then VF <- flag: with x = F the flag wins (40_step_cycle.md R105; log 11). -/
def State.setResultAndFlag (s : State) (x : Reg) (result flag : Byte) : State :=
  (s.setV x result).setV VF flag

end Sys2Proof.Machine
end

