-- ==== Sys2Proof/Machine/Alu.lean ====
section
/-!
DEFINITION. Register loads and the ALU (42_register_alu.md). Every right side reads the registers as they
stood at the start of execute (40_step_cycle.md R104).
-/

namespace Sys2Proof.Machine

/-- V[x] <- result; pc <- pc + 2: an instruction that writes no flag. -/
def aluPlain (x : Reg) (result : Byte) (s : State) : Result := .next (s.setV x result).advance

/-- V[x] <- result; VF <- flag, last; pc <- pc + 2. -/
def aluFlag (x : Reg) (result flag : Byte) (s : State) : Result :=
  .next (s.setResultAndFlag x result flag).advance

/-- LD_VK, 6xkk (42_register_alu.md R140). -/
def execLdVk (x : Reg) (kk : Byte) (s : State) : Result := aluPlain x kk s

/-- ADD_VK, 7xkk: wrapping, no flag (42_register_alu.md R141). -/
def execAddVk (x : Reg) (kk : Byte) (s : State) : Result := aluPlain x (s.reg x + kk) s

/-- LD_VV, 8xy0 (42_register_alu.md R142). -/
def execLdVv (x y : Reg) (s : State) : Result := aluPlain x (s.reg y) s

/-- OR, 8xy1: VF is not reset (42_register_alu.md R143; log 10). -/
def execOrVv (x y : Reg) (s : State) : Result := aluPlain x (s.reg x ||| s.reg y) s

/-- AND, 8xy2 (42_register_alu.md R144; log 10). -/
def execAndVv (x y : Reg) (s : State) : Result := aluPlain x (s.reg x &&& s.reg y) s

/-- XOR, 8xy3 (42_register_alu.md R145; log 10). -/
def execXorVv (x y : Reg) (s : State) : Result := aluPlain x (s.reg x ^^^ s.reg y) s

/-- ADD_VV, 8xy4 (42_register_alu.md R146). -/
def execAddVv (x y : Reg) (s : State) : Result :=
  aluFlag x (s.reg x + s.reg y) (carryFlag (s.reg x) (s.reg y)) s

/-- SUB, 8xy5 (42_register_alu.md R147; log 8). -/
def execSub (x y : Reg) (s : State) : Result :=
  aluFlag x (s.reg x - s.reg y) (notBorrowFlag (s.reg x) (s.reg y)) s

/-- SHR, 8xy6: shifts V[x], ignores y (42_register_alu.md R148; log 9). -/
def execShr (x : Reg) (s : State) : Result := aluFlag x (s.reg x >>> 1) (droppedLowFlag (s.reg x)) s

/-- SUBN, 8xy7 (42_register_alu.md R149; log 8). -/
def execSubn (x y : Reg) (s : State) : Result :=
  aluFlag x (s.reg y - s.reg x) (notBorrowFlag (s.reg y) (s.reg x)) s

/-- SHL, 8xyE: shifts V[x], ignores y (42_register_alu.md R150; log 9). -/
def execShl (x : Reg) (s : State) : Result := aluFlag x (s.reg x <<< 1) (droppedHighFlag (s.reg x)) s

/-- RND, Cxkk: the free random byte AND kk (42_register_alu.md R152; log 2). -/
def execRnd (x : Reg) (kk : Byte) (s : State) : Result := aluPlain x (s.rnd &&& kk) s.drawn

end Sys2Proof.Machine
end

