-- ==== Sys2Proof/Machine/Control.lean ====
section
/-!
DEFINITION. Control flow: return, jumps, call and the conditional skips (41_control_flow.md).
-/

namespace Sys2Proof.Machine

/-- RET, 00EE (41_control_flow.md R120). -/
def execRet (s : State) : Result :=
  match s.pop with
  | some (target, t) => .next (t.transfer target)
  | none => takeFault .stackUnderflow s

/-- JP, 1nnn (41_control_flow.md R121). -/
def execJp (nnn : Imm12) (s : State) : Result := .next (s.transfer (zext16 nnn))

/-- CALL, 2nnn: the return address is pc + 2 (41_control_flow.md R122). -/
def execCall (nnn : Imm12) (s : State) : Result :=
  match s.push (s.pc + 2) with
  | some t => .next (t.transfer (zext16 nnn))
  | none => takeFault .stackOverflow s

/-- JP_V0, Bnnn: pc <- (V0 + nnn) & 0xFFF (41_control_flow.md R123, 90_conflicts.md C3). -/
def execJpV0 (nnn : Imm12) (s : State) : Result :=
  .next (s.transfer ((zext16 (s.reg 0) + zext16 nnn) &&& 0x0FFF))

/-- SE_VK, 3xkk (41_control_flow.md R125). -/
def execSeVk (x : Reg) (kk : Byte) (s : State) : Result := .next (s.skipIf (s.reg x == kk))

/-- SNE_VK, 4xkk (41_control_flow.md R126). -/
def execSneVk (x : Reg) (kk : Byte) (s : State) : Result := .next (s.skipIf (s.reg x != kk))

/-- SE_VV, 5xy0 (41_control_flow.md R127). -/
def execSeVv (x y : Reg) (s : State) : Result := .next (s.skipIf (s.reg x == s.reg y))

/-- SNE_VV, 9xy0 (41_control_flow.md R128). -/
def execSneVv (x y : Reg) (s : State) : Result := .next (s.skipIf (s.reg x != s.reg y))

end Sys2Proof.Machine
end

