-- ==== Sys2Proof/Machine/Display.lean ====
section
/-!
DEFINITION. Framebuffer write and collision detection (44_display.md).
-/

namespace Sys2Proof.Machine

/-- A draw in progress: the framebuffer so far, and whether an on pixel was turned off. -/
structure Draw where
  fb : Framebuffer
  hit : Bool
  deriving DecidableEq, Repr

/-- One sprite bit (the body of the loops of 44_display.md R192): a set bit reports its pixel if it is on, and
toggles it; a clear bit does neither (R193). -/
def drawBit (X Y : Byte) (row : Byte) (j : Nat) (d : Draw) (i : Nat) : Draw :=
  if spriteBit row i then
    let r := pixelRow Y j
    let c := pixelColumn X i
    ⟨d.fb.put r c (!d.fb.get r c), d.hit || d.fb.get r c⟩
  else d

/-- The eight bits of sprite row j, leftmost first. -/
def drawRow (X Y : Byte) (row : Byte) (j : Nat) (d : Draw) : Draw :=
  (List.range 8).foldl (drawBit X Y row j) d

/-- The sprite's rows from row j on, the byte at the lowest address first (44_display.md R191). -/
def drawRows (X Y : Byte) (j : Nat) : List Byte → Draw → Draw
  | [], d => d
  | row :: rows, d => drawRows X Y (j + 1) rows (drawRow X Y row j d)

/-- CLS, 00E0: every pixel off (44_display.md R190). -/
def execCls (s : State) : Result := .next { s with FB := Framebuffer.allOff }.advance

/-- DRW, Dxyn (44_display.md R192): the coordinates are latched before VF is written, the range is checked
before any effect, and VF ends as the collision. -/
def execDrw (x y : Reg) (n : Rows) (s : State) : Result :=
  checkRange s.I n.val s
    (let d := drawRows (s.reg x) (s.reg y) 0 (s.mem.readBytes s.I.toNat n.val) ⟨s.FB, false⟩
     .next ({ s with FB := d.fb }.setV VF (flagByte d.hit)).advance)

end Sys2Proof.Machine
end

