-- ==== Sys2Proof/Machine/Index.lean ====
section
/-!
DEFINITION. The index register and the memory transfers (43_index_memory.md).
-/

namespace Sys2Proof.Machine

/-- I <- value; pc <- pc + 2. -/
def loadIndex (value : Word) (s : State) : Result := .next { s with I := value }.advance

/-- Store bytes at I after the range check; I is unchanged (43_index_memory.md; log 10). -/
def storeAtIndex (bs : List Byte) (s : State) : Result :=
  checkRange s.I bs.length s (.next { s with mem := s.mem.writeBytes s.I.toNat bs }.advance)

/-- LD_I, Annn (43_index_memory.md R170). -/
def execLdI (nnn : Imm12) (s : State) : Result := loadIndex (zext16 nnn) s

/-- ADD_I_V, Fx1E: modulo 2^16, VF untouched (43_index_memory.md R171; log 10). -/
def execAddIV (x : Reg) (s : State) : Result := loadIndex (s.I + zext16 (s.reg x)) s

/-- LD_F_V, Fx29 (43_index_memory.md R172). -/
def execLdFV (x : Reg) (s : State) : Result := loadIndex (glyphAddress (s.reg x)) s

/-- LD_B_V, Fx33 (43_index_memory.md R173). -/
def execLdBV (x : Reg) (s : State) : Result := storeAtIndex (decimalDigits (s.reg x)) s

/-- LD_MEM_V, Fx55 (43_index_memory.md R174). -/
def execLdMemV (x : Reg) (s : State) : Result := storeAtIndex (s.block x) s

/-- LD_V_MEM, Fx65 (43_index_memory.md R175). -/
def execLdVMem (x : Reg) (s : State) : Result :=
  checkRange s.I (blockExtent x) s
    (.next (s.setBlockFrom 0 (s.mem.readBytes s.I.toNat (blockExtent x))).advance)

end Sys2Proof.Machine
end

