-- ==== Sys2Proof/Machine/TimersKeys.lean ====
section
/-!
DEFINITION. Timers and keys (45_timers_keys.md). The tick of 40_step_cycle.md R107 follows in `step`.
-/

namespace Sys2Proof.Machine

/-- LD_V_DT, Fx07 (45_timers_keys.md R201; log 4). -/
def execLdVDt (x : Reg) (s : State) : Result := .next (s.setV x s.DT).advance

/-- LD_DT_V, Fx15 (45_timers_keys.md R202; log 4). -/
def execLdDtV (x : Reg) (s : State) : Result := .next { s with DT := s.reg x }.advance

/-- LD_ST_V, Fx18 (45_timers_keys.md R203; log 4). -/
def execLdStV (x : Reg) (s : State) : Result := .next { s with ST := s.reg x }.advance

/-- LD_V_K, Fx0A: the lowest pressed key into V[x], or pc unchanged when none is pressed
(45_timers_keys.md R205; log 12). -/
def execLdVKey (x : Reg) (s : State) : Result :=
  match lowestPressed s.KEY with
  | some k => .next (s.setV x (BitVec.ofNat 8 k.val)).advance
  | none => .next s

/-- A key-conditioned skip: the key V[x], checked (45_timers_keys.md R204; log 6), skips when its state is
`pressed`. -/
def skipOnKey (pressed : Bool) (x : Reg) (s : State) : Result :=
  match keyOfValue (s.reg x) with
  | some k => .next (s.skipIf (s.KEY[k] == pressed))
  | none => takeFault .keyIndexOutOfRange s

/-- SKP, Ex9E (45_timers_keys.md R206). -/
def execSkp (x : Reg) (s : State) : Result := skipOnKey true x s

/-- SKNP, ExA1 (45_timers_keys.md R207). -/
def execSknp (x : Reg) (s : State) : Result := skipOnKey false x s

end Sys2Proof.Machine
end

