-- ==== Sys2Proof/Machine/Dispatch.lean ====
section
/-!
DEFINITION. Dispatch: the decoded instruction selects exactly one handler (40_step_cycle.md R103).
-/

namespace Sys2Proof.Machine

def exec (i : Instr) (s : State) : Host.Outcome State Fault Refusal :=
  match i with
  | .cls => Sys2Proof.Machine.execCls s
  | .ret => Sys2Proof.Machine.execRet s
  | .jp nnn => Sys2Proof.Machine.execJp nnn s
  | .call nnn => Sys2Proof.Machine.execCall nnn s
  | .seVk x kk => Sys2Proof.Machine.execSeVk x kk s
  | .sneVk x kk => Sys2Proof.Machine.execSneVk x kk s
  | .seVv x y => Sys2Proof.Machine.execSeVv x y s
  | .ldVk x kk => Sys2Proof.Machine.execLdVk x kk s
  | .addVk x kk => Sys2Proof.Machine.execAddVk x kk s
  | .ldVv x y => Sys2Proof.Machine.execLdVv x y s
  | .orVv x y => Sys2Proof.Machine.execOrVv x y s
  | .andVv x y => Sys2Proof.Machine.execAndVv x y s
  | .xorVv x y => Sys2Proof.Machine.execXorVv x y s
  | .addVv x y => Sys2Proof.Machine.execAddVv x y s
  | .sub x y => Sys2Proof.Machine.execSub x y s
  | .shr x _ => Sys2Proof.Machine.execShr x s
  | .subn x y => Sys2Proof.Machine.execSubn x y s
  | .shl x _ => Sys2Proof.Machine.execShl x s
  | .sneVv x y => Sys2Proof.Machine.execSneVv x y s
  | .ldI nnn => Sys2Proof.Machine.execLdI nnn s
  | .jpV0 nnn => Sys2Proof.Machine.execJpV0 nnn s
  | .rnd x kk => Sys2Proof.Machine.execRnd x kk s
  | .drw x y n => Sys2Proof.Machine.execDrw x y n s
  | .skp x => Sys2Proof.Machine.execSkp x s
  | .sknp x => Sys2Proof.Machine.execSknp x s
  | .ldVDt x => Sys2Proof.Machine.execLdVDt x s
  | .ldVKey x => Sys2Proof.Machine.execLdVKey x s
  | .ldDtV x => Sys2Proof.Machine.execLdDtV x s
  | .ldStV x => Sys2Proof.Machine.execLdStV x s
  | .addIV x => Sys2Proof.Machine.execAddIV x s
  | .ldFV x => Sys2Proof.Machine.execLdFV x s
  | .ldBV x => Sys2Proof.Machine.execLdBV x s
  | .ldMemV x => Sys2Proof.Machine.execLdMemV x s
  | .ldVMem x => Sys2Proof.Machine.execLdVMem x s

end Sys2Proof.Machine
end

