-- ==== Sys2Proof/Machine/Fetch.lean ====
section
/-!
DEFINITION. Fetch and decode (40_step_cycle.md R101, R102), in the fault order of 60_exceptions.md R223, and
placing an instruction's bytes where the next step fetches them.
-/

namespace Sys2Proof.Machine

/-- The word at pc, big-endian; `none` when pc + 2 > 4096, checked before anything is read
(40_step_cycle.md R101). No alignment is asked for (20_memory.md R55). -/
def fetchWord (s : State) : Option Word :=
  if inRange s.pc Config.insnBytes then
    some (wordOfBytes (s.mem.read s.pc.toNat) (s.mem.read (s.pc.toNat + 1)))
  else none

/-- Fetch, then decode: the instruction, or the first fault that applies (60_exceptions.md R223). -/
def fetchInstr (s : State) : Except Fault Instr :=
  match fetchWord s with
  | none => .error .memoryOutOfRange
  | some w =>
    match decode w with
    | .ok i => .ok i
    | .error _ => .error .illegalInstruction

/-- Where the next fetch can read from: pc when its two bytes are in memory, the entry point 0x200 otherwise. -/
def fetchablePc (s : State) : Word := if inRange s.pc Config.insnBytes then s.pc else 0x0200

/-- `s` with a word stored at the address the next step fetches from, its high byte first, able to step
(STATUS = RUN): what the load port does for a whole image (log 16, log 21). -/
def placeWord (s : State) (w : Word) : State :=
  { s with
    pc := fetchablePc s
    mem := s.mem.writeBytes (fetchablePc s).toNat [highByte w, lowByte w]
    STATUS := .run }

end Sys2Proof.Machine
end

