-- ==== Sys2Proof/Machine/Step.lean ====
section
/-!
DEFINITION. The step transaction (40_step_cycle.md R100).
-/

namespace Sys2Proof.Machine

/-- One step (40_step_cycle.md R100). A step that completes answers the state with the instruction's effects
and then the timer tick, STATUS = RUN; a step that faults answers the state at its start with
STATUS = FAULT(f); a step invoked while STATUS = FAULT(f) answers that fault and changes nothing (R108). -/
def step (s : State) : Host.Outcome State Fault Refusal :=
  match s.STATUS with
  | .fault f => stepWhileFaulted f s
  | .run =>
    match fetchInstr s with
    | .error f => takeFault f s
    | .ok i => completeStep (exec i s)

/-- `s` with the instruction of a table word stored where `step` fetches its next instruction. -/
def State.withFetchWord (s : State) (nbits w : Nat) : State := placeWord s (tableWord nbits w)

end Sys2Proof.Machine
end

