-- ==== Sys2Proof/Machine/Ports.lean ====
section
/-!
DEFINITION. The host's ports (10_state.md R40): reset, load, key_write, fb_read, sound_on, state_read, and the
result a step returns. `step` itself is Machine/Step.lean. `Session` adds to CORE what belongs to the host's
schedule of calls (10_state.md R21): whether a load is still admitted.
-/

namespace Sys2Proof.Machine

/-- What the step and load ports return (10_state.md R40, 40_step_cycle.md R109). -/
inductive StepResult where
  | continue
  | fault (f : Fault)
  deriving DecidableEq, Repr

/-- The result a STATUS stands for: STATUS is how the outcome is held between steps (10_state.md R38). -/
def Status.result : Status → StepResult
  | .run => .continue
  | .fault f => .fault f

/-- The result port of a step, read from its outcome: FAULT(f) for the step that raises f and for every step
invoked while STATUS = FAULT(f), CONTINUE otherwise (40_step_cycle.md R100, R108, R109). `none` is for a
refusal, which no step of CORE answers. -/
def stepResult : Result → Option StepResult
  | .next t => some t.STATUS.result
  | .fault f => some (.fault f)
  | .refused _ => none

/-- The reset port: every field of CORE at its reset value (70_reset_and_hazards.md R250; log 15). The count of
random draws is no field of CORE and goes on, so that a draw after reset is a fresh one (log 2). -/
def State.resetPort (s : State) : State := { State.reset with draws := s.draws }

/-- The effect of load (70_reset_and_hazards.md R253, R254): a fault that writes no byte when the image is too
large, otherwise the image at 0x200. -/
def State.loadImage (img : List Byte) (s : State) : Result :=
  if imageFits img then .next { s with mem := s.mem.writeBytes Config.progBase img }
  else takeFault .programTooLarge s

/-- The effect of key_write(k, b): KEY[k] <- b (10_state.md R42). -/
def State.keyWrite (k : Key) (b : Bool) (s : State) : State := { s with KEY := s.KEY.set k b }

/-- fb_read: the 2048 pixels in row-major order, FB[r][c] at index r·64 + c (10_state.md R43; log 20). -/
def State.fbRead (s : State) : List Bool := (s.FB.toList.map (·.toList)).flatten

/-- sound_on = 1 if and only if ST != 0 (10_state.md R44). -/
def State.soundOn (s : State) : Bool := s.ST != 0

/-- state_read: the state as it stands, with no side effect (10_state.md R43). -/
def State.stateRead (s : State) : State := s

/-- What the host may do between two steps, or a step (10_state.md R40). -/
inductive HostEvent where
  | reset
  | load (img : List Byte)
  | keyWrite (k : Key) (b : Bool)
  | step
  deriving DecidableEq, Repr

/-- CORE with the part of the host's schedule that load depends on: `loadOpen` holds from reset to the first
load or step (70_reset_and_hazards.md R253; log 16). -/
structure Session where
  core : State
  loadOpen : Bool
  deriving DecidableEq, Repr

/-- The session right after creation. -/
def Session.start : Session := ⟨State.reset, true⟩

/-- The outcome of an event on CORE, as one of the session in which no load is admitted any more. -/
def closeLoad : Result → Host.Outcome Session Fault Refusal
  | .next t => .next ⟨t, false⟩
  | .fault f => .fault f
  | .refused r => .refused r

/-- A load, admitted once after each reset and before the first step (70_reset_and_hazards.md R253). After a
fault the machine is stuck until reset (93_implementation_defined.md U15). -/
def Session.load (img : List Byte) (h : Session) : Host.Outcome Session Fault Refusal :=
  match h.core.STATUS with
  | .fault f => .fault f
  | .run => if h.loadOpen then closeLoad (h.core.loadImage img) else .refused .loadNotAdmitted

/-- A key write between steps (10_state.md R42). After a fault the machine is stuck until reset
(93_implementation_defined.md U15; log 17). -/
def Session.keyWrite (k : Key) (b : Bool) (h : Session) : Host.Outcome Session Fault Refusal :=
  match h.core.STATUS with
  | .fault f => .fault f
  | .run => .next { h with core := h.core.keyWrite k b }

/-- One event of the host. -/
def Session.act (e : HostEvent) (h : Session) : Host.Outcome Session Fault Refusal :=
  match e with
  | .reset => .next ⟨h.core.resetPort, true⟩
  | .load img => h.load img
  | .keyWrite k b => h.keyWrite k b
  | .step => closeLoad (Machine.step h.core)

end Sys2Proof.Machine
end

