-- ==== Sys2Proof/Safety.lean ====
section
/-!
DEFINITION. The terms claims use: what an instruction may change (frames), the invariant of the machine, what
a step faults on, and what a safe run is.
-/

namespace Sys2Proof.Machine

/-! ### Frames (00_scope.md R12) -/

/-- What an instruction may change besides pc: the registers of `regs`, the fields marked true, and the `len`
bytes of memory from `base` up. -/
structure Footprint where
  regs : List Reg := []
  I : Bool := false
  stack : Bool := false
  DT : Bool := false
  ST : Bool := false
  FB : Bool := false
  draws : Bool := false
  base : Nat := 0
  len : Nat := 0
  deriving DecidableEq, Repr

/-- From `s` to `t` everything is unchanged but pc and what the footprint names: registers one by one, memory
through the reading of each byte. KEY and STATUS are in no footprint: no instruction that completes writes
them (10_state.md R31, R38). -/
def Frame (p : Footprint) (s t : State) : Prop :=
  (∀ r : Reg, r ∉ p.regs → t.V[r] = s.V[r]) ∧
  (p.I = false → t.I = s.I) ∧
  (p.stack = false → t.S = s.S ∧ t.SP = s.SP) ∧
  (p.DT = false → t.DT = s.DT) ∧
  (p.ST = false → t.ST = s.ST) ∧
  (p.FB = false → t.FB = s.FB) ∧
  (p.draws = false → t.draws = s.draws) ∧
  (∀ a : Nat, a < p.base ∨ p.base + p.len ≤ a → t.mem.read a = s.mem.read a) ∧
  t.KEY = s.KEY ∧
  t.STATUS = s.STATUS

/-- The words that a match and a mask of 30_encoding.md R74 admit decode to `build` of the word. -/
def Encodes (mtch mask : Word) (build : Word → Instr) : Prop :=
  ∀ w : Word, w &&& mask = mtch → decode w = .ok (build w)

/-- The outcome with `f` applied to its next state. -/
def mapNext (f : State → State) : Result → Result
  | .next t => .next (f t)
  | .fault e => .fault e
  | .refused e => .refused e

/-! ### The program counter (40_step_cycle.md R106) -/

/-- The new pc of each instruction when it completes, the table of 40_step_cycle.md R106. -/
def nextPc (s : State) : Instr → Word
  | .jp nnn | .call nnn => zext16 nnn
  | .jpV0 nnn => (zext16 s.V[(0 : Reg)] + zext16 nnn) &&& 0x0FFF
  | .ret => s.S[s.SP.val - 1]'(by have := s.SP.isLt; omega)
  | .seVk x kk => if s.V[x] = kk then s.pc + 4 else s.pc + 2
  | .sneVk x kk => if s.V[x] ≠ kk then s.pc + 4 else s.pc + 2
  | .seVv x y => if s.V[x] = s.V[y] then s.pc + 4 else s.pc + 2
  | .sneVv x y => if s.V[x] ≠ s.V[y] then s.pc + 4 else s.pc + 2
  | .skp x => if ∃ k : Key, s.V[x].toNat = k.val ∧ s.KEY[k] = true then s.pc + 4 else s.pc + 2
  | .sknp x => if ∃ k : Key, s.V[x].toNat = k.val ∧ s.KEY[k] = false then s.pc + 4 else s.pc + 2
  | .ldVKey _ => if ∃ k : Key, s.KEY[k] = true then s.pc + 2 else s.pc
  | .cls | .ldVk _ _ | .addVk _ _ | .ldVv _ _ | .orVv _ _ | .andVv _ _ | .xorVv _ _ | .addVv _ _
  | .sub _ _ | .shr _ _ | .subn _ _ | .shl _ _ | .ldI _ | .rnd _ _ | .drw _ _ _ | .ldVDt _ | .ldDtV _
  | .ldStV _ | .addIV _ | .ldFV _ | .ldBV _ | .ldMemV _ | .ldVMem _ => s.pc + 2

/-! ### Faults (60_exceptions.md R220) -/

/-- The fault an instruction's own check raises, the table of 60_exceptions.md R220; `none` when it completes. -/
def checkFault (s : State) : Instr → Option Fault
  | .call _ => if s.SP.val = 16 then some .stackOverflow else none
  | .ret => if s.SP.val = 0 then some .stackUnderflow else none
  | .drw _ _ n => if s.I.toNat + n.val > 4096 then some .memoryOutOfRange else none
  | .ldBV _ => if s.I.toNat + 3 > 4096 then some .memoryOutOfRange else none
  | .ldMemV x | .ldVMem x => if s.I.toNat + (x.val + 1) > 4096 then some .memoryOutOfRange else none
  | .skp x | .sknp x => if s.V[x].toNat > 15 then some .keyIndexOutOfRange else none
  | .cls | .jp _ | .jpV0 _ | .seVk _ _ | .sneVk _ _ | .seVv _ _ | .sneVv _ _ | .ldVk _ _ | .addVk _ _
  | .ldVv _ _ | .orVv _ _ | .andVv _ _ | .xorVv _ _ | .addVv _ _ | .sub _ _ | .shr _ _ | .subn _ _
  | .shl _ _ | .ldI _ | .rnd _ _ | .ldVDt _ | .ldVKey _ | .ldDtV _ | .ldStV _ | .addIV _ | .ldFV _ => none

/-- The word at pc, as a number: the byte at pc is bits 15:8 (40_step_cycle.md R101). -/
def wordAtPc (s : State) : Word :=
  BitVec.ofNat 16 ((s.mem.read s.pc.toNat).toNat * 256 + (s.mem.read (s.pc.toNat + 1)).toNat)

/-- The fault a step from a running state raises, in the order of 60_exceptions.md R223: the fetch range, then
decode, then the instruction's own check. -/
def stepFault (s : State) : Option Fault :=
  if s.pc.toNat + 2 > 4096 then some .memoryOutOfRange
  else match decode (wordAtPc s) with
    | .error _ => some .illegalInstruction
    | .ok i => checkFault s i

/-! ### Reset (10_state.md R34) -/

/-- Every field of CORE at the value the table of 10_state.md R34 lists. -/
def HasResetValues (s : State) : Prop :=
  s.mem.readBytes 0 80 = font ∧
  (∀ a, 0x50 ≤ a → a < 4096 → s.mem.read a = 0) ∧
  (∀ x : Reg, s.V[x] = 0) ∧ s.I = 0 ∧ s.pc = 0x0200 ∧
  (∀ j : Fin 16, s.S[j] = 0) ∧ s.SP = 0 ∧ s.DT = 0 ∧ s.ST = 0 ∧
  (∀ (r : Fin 32) (c : Fin 64), s.FB.get r c = false) ∧
  (∀ k : Key, s.KEY[k] = false) ∧ s.STATUS = .run

/-! ### The invariant -/

/-- What every step keeps: memory in its canonical form with all cells inside 0x000–0xFFF (20_memory.md R50),
pc at most 0x1002 and every stack slot at most 0x1000 (10_state.md R26). -/
structure Inv (s : State) : Prop where
  mem : s.mem.wf = true
  pc : s.pc.toNat ≤ 0x1002
  slots : ∀ j : Fin 16, s.S[j].toNat ≤ 0x1000

/-! ### VF (10_state.md R24) -/

/-- Whether an instruction may write VF, the lists of 10_state.md R24: as a flag whatever x is, or because it
names VF as its destination. -/
def mayWriteVF : Instr → Bool
  | .addVv _ _ | .sub _ _ | .shr _ _ | .subn _ _ | .shl _ _ | .drw _ _ _ => true
  | .ldVk x _ | .addVk x _ | .ldVv x _ | .orVv x _ | .andVv x _ | .xorVv x _ | .rnd x _ | .ldVDt x
  | .ldVKey x | .ldVMem x => x == VF
  | .cls | .ret | .jp _ | .call _ | .seVk _ _ | .sneVk _ _ | .seVv _ _ | .sneVv _ _ | .ldI _ | .jpV0 _
  | .skp _ | .sknp _ | .ldDtV _ | .ldStV _ | .addIV _ | .ldFV _ | .ldBV _ | .ldMemV _ => false

/-! ### Safe runs -/

/-- A step that completes: it answers a next state, and no fault. -/
def Completes (s t : State) : Prop := step s = .next t ∧ t.STATUS = .run

/-- A step that raises the fault `f`, precisely (60_exceptions.md R222). -/
def Raises (f : Fault) (s : State) : Prop := step s = .next { s with STATUS := .fault f }

/-- A safe run: steps that all complete, from `s` to `t`, and the instructions they ran, first to last. -/
inductive SafeRun : List Instr → State → State → Prop where
  | here (s : State) : SafeRun [] s s
  | step {i : Instr} {is : List Instr} {s t u : State} :
      fetchInstr s = .ok i → Completes s t → SafeRun is t u → SafeRun (i :: is) s u

/-- The sessions a host can reach: events from creation on that are admitted (70_reset_and_hazards.md R255). -/
inductive Reachable : Session → Prop where
  | start : Reachable Session.start
  | act {h h' : Session} (e : HostEvent) : Reachable h → h.act e = .next h' → Reachable h'

end Sys2Proof.Machine
end

