-- ==== Sys2Proof/Certificates/Slice0/Obligations.lean ====
section
/-!
DEFINITION. The statements for the provers. `Frame p s t` says that from s to t nothing changes but pc and what
the footprint p names; `Encodes m k b` says that every word with (w & k) = m decodes to `b w`. Where a clause
rests on a decision the spec marks as its own (D<n>) or on the model's log, the docstring says so.
-/

open Sys2Proof Sys2Proof.Machine

/-! ### Reset and the invariant -/

/-- The state after creation, and after the reset port from any session, has the values that the table of
10_state.md (Reset values) lists. The font bytes are D21 (log 3), STATUS is D5, the reset port is D22 (log 15). -/
def Obligations.ResetGivesEveryFieldItsListedValue : Prop :=
  HasResetValues State.reset ∧
  ∀ h : Session, ∃ t, h.act .reset = .next ⟨t, true⟩ ∧ HasResetValues t

/-- The invariant of `EveryStepKeepsTheInvariant` holds right after reset. -/
def Obligations.ResetSatisfiesTheInvariant : Prop := Inv State.reset

/-- Every step from a state that meets the invariant leads to one: memory stays canonical and inside
0x000–0xFFF (log 18), pc stays at most 0x1002 and every stack slot at most 0x1000 (10_state.md, Program
counter). -/
def Obligations.EveryStepKeepsTheInvariant : Prop :=
  ∀ s t : State, Inv s → step s = .next t → Inv t

/-- Every event of a host (reset, load of any image, key_write, step) leads from a session whose core meets the
invariant to one whose core does. The canonical form of memory is log 18; which loads and key writes are admitted
is log 16 and log 17, the reset port log 15. -/
def Obligations.EveryHostEventKeepsTheInvariant : Prop :=
  ∀ (h h' : Session) (e : HostEvent), Inv h.core → h.act e = .next h' → Inv h'.core

/-- Whatever admitted events a host issues from creation on (reset, load, key_write, step), the state meets the
invariant. The canonical form of memory is log 18; which loads and key writes are admitted is log 16 and log 17,
the reset port log 15. -/
def Obligations.ReachableSessionsMeetTheInvariant : Prop :=
  ∀ h : Session, Reachable h → Inv h.core

/-! ### Encoding -/

/-- Decoding the word of an instruction gives the instruction back, every operand at every value. -/
def Obligations.DecodeOfEncodeIsTheInstruction : Prop :=
  ∀ i : Instr, decode (encode i) = .ok i

/-- Encoding the instruction a word decodes to gives the word back: no bit is dropped, not even the y that the
shifts ignore. -/
def Obligations.EncodeOfDecodeIsTheWord : Prop :=
  ∀ (w : Word) (i : Instr), decode w = .ok i → encode i = w

/-- The decoder (the case tree) and the opcode map (match and mask) agree on every word: a word that decodes
matches exactly one row, the row of its instruction, and a word that does not decode matches none. The fixed
nibbles of 00E0, 00EE, 5xy0 and 9xy0 are required by D4. -/
def Obligations.DecoderAgreesWithTheOpcodeMap : Prop :=
  ∀ w : Word,
    (opcodeTable.filter (·.hits w)).map (·.mnemonic) =
      match decode w with
      | .ok i => [i.mnemonic]
      | .error _ => []

/-- The illegal words are exactly the six spaces of 30_encoding.md (Reserved, illegal and hint encodings), each
rejected under its own name. That they are rejected is D4 (log 7). -/
def Obligations.IllegalWordsAreTheSixSpaces : Prop :=
  ∀ w : Word,
    (decode w = .error .family0 ↔ opField w = 0x0 ∧ w ≠ 0x00E0 ∧ w ≠ 0x00EE) ∧
    (decode w = .error .family5 ↔ opField w = 0x5 ∧ nBits w ≠ 0) ∧
    (decode w = .error .family8 ↔ opField w = 0x8 ∧ (nBits w).toNat ∈ [8, 9, 0xA, 0xB, 0xC, 0xD, 0xF]) ∧
    (decode w = .error .family9 ↔ opField w = 0x9 ∧ nBits w ≠ 0) ∧
    (decode w = .error .familyE ↔ opField w = 0xE ∧ (kkField w).toNat ∉ [0x9E, 0xA1]) ∧
    (decode w = .error .familyF ↔
      opField w = 0xF ∧ (kkField w).toNat ∉ [0x07, 0x0A, 0x15, 0x18, 0x1E, 0x29, 0x33, 0x55, 0x65]) ∧
    decode w ≠ .error .truncated

/-- 30_encoding.md R71: each operand field is the bits it is said to be. -/
def Obligations.OperandFieldsAreTheirBits : Prop :=
  ∀ w : Word,
    (opField w).toNat = w.toNat / 2 ^ 12 ∧
    (xField w).val = w.toNat / 2 ^ 8 % 2 ^ 4 ∧
    (yField w).val = w.toNat / 2 ^ 4 % 2 ^ 4 ∧
    (nField w).val = w.toNat % 2 ^ 4 ∧ (nBits w).toNat = w.toNat % 2 ^ 4 ∧
    (kkField w).toNat = w.toNat % 2 ^ 8 ∧
    (nnnField w).toNat = w.toNat % 2 ^ 12

/-- Words of 95_test_vectors.md, one or more of each family, decode to the instructions listed beside them. -/
def Obligations.SampleWordsDecodeAsListed : Prop :=
  decode 0x00EE = .ok .ret ∧ decode 0x2210 = .ok (.call 0x210) ∧ decode 0x3005 = .ok (.seVk 0 0x05) ∧
  decode 0x6A5C = .ok (.ldVk 0xA 0x5C) ∧ decode 0x8105 = .ok (.sub 1 0) ∧ decode 0xC30F = .ok (.rnd 3 0x0F) ∧
  decode 0xF265 = .ok (.ldVMem 2) ∧ decode 0xD012 = .ok (.drw 0 1 2) ∧ decode 0xE19E = .ok (.skp 1) ∧
  decode 0xF50A = .ok (.ldVKey 5) ∧ decode 0x8018 = .error .family8 ∧ decode 0x0123 = .error .family0

/-! ### The step -/

/-- When the two bytes at pc decode to an instruction, a step from a running state is that instruction's
execution and then, if it completes, the timer tick; if it faults, the step is its fault, with no tick. (The
tick after it is D24; the fault without effects is D6: log 14.) -/
def Obligations.StepRunsTheDecodedInstruction : Prop :=
  ∀ (s : State) (i : Instr), s.STATUS = .run → s.pc.toNat + 2 ≤ 4096 →
    decode (wordOfBytes (s.mem.read s.pc.toNat) (s.mem.read (s.pc.toNat + 1))) = .ok i →
    (∀ t, exec i s = .next t → t.STATUS = .run →
      step s = .next { t with DT := if t.DT = 0 then 0 else t.DT - 1, ST := if t.ST = 0 then 0 else t.ST - 1 }) ∧
    (∀ t f, exec i s = .next t → t.STATUS = .fault f → step s = .next t)

/-- 40_step_cycle.md R101: the fetch checks pc + 2 against 4096 first and raises MemoryOutOfRange; otherwise the
word is the two bytes at pc, big-endian, as they are before execute, and the step executes what it decodes to. -/
def Obligations.FetchReadsBigEndianOrFaults : Prop :=
  ∀ s : State, s.STATUS = .run →
    (4096 < s.pc.toNat + 2 → Raises .memoryOutOfRange s) ∧
    (s.pc.toNat + 2 ≤ 4096 → ∀ i, decode (wordAtPc s) = .ok i → step s = completeStep (exec i s))

/-- A word that decodes to nothing raises IllegalInstruction, and nothing of the step takes effect (D4, D6;
log 7, log 14). -/
def Obligations.IllegalWordsRaiseIllegalInstruction : Prop :=
  ∀ (s : State) (e : Illegal), s.STATUS = .run → s.pc.toNat + 2 ≤ 4096 →
    decode (wordAtPc s) = .error e → Raises .illegalInstruction s

/-- While STATUS = FAULT(f) a step answers f again and no next state, whatever stands at pc (D7; log 1). -/
def Obligations.StepAfterAFaultAnswersItAgain : Prop :=
  ∀ (s : State) (f : Fault), s.STATUS = .fault f →
    step s = .fault f ∧ stepResult (step s) = some (.fault f)

/-- 40_step_cycle.md R110: every step returns CONTINUE or FAULT(f), from every state. -/
def Obligations.EveryStepReturnsAResult : Prop :=
  ∀ s : State, stepResult (step s) = some .continue ∨ ∃ f, stepResult (step s) = some (.fault f)

/-- A step from a running state faults exactly on the conditions of the table of 60_exceptions.md (Fault causes
and codes), the first that applies in the order fetch range, decode, the instruction's own check; a fault leaves
the state as it was but for STATUS, and without one the step completes. The two added faults are D4 and D15, the
order and the unchanged state D6 (log 6, log 7, log 14), the range check of an empty sprite D17 (log 13). -/
def Obligations.StepsFaultExactlyOnTheirConditions : Prop :=
  ∀ s : State, s.STATUS = .run →
    ∃ t, step s = .next t ∧
      match stepFault s with
      | some f => t = { s with STATUS := .fault f }
      | none => t.STATUS = .run

/-- An instruction that completes leaves pc by its kind, the table of 40_step_cycle.md (The step): advance, skip,
transfer or wait, with the targets and conditions of 41_control_flow.md and 45_timers_keys.md (Keys); pc + 2 and
pc + 4 never overflow at a pc that could be fetched from (D19; log 24); and a new pc out of range faults at the
next fetch. That the key skips test the key V[x] is C5 (log 6, PRESUMED), the mask of Bnnn C3 (log 25). -/
def Obligations.CompletedInstructionsSetPcByKind : Prop :=
  (∀ (i : Instr) (s t : State), s.STATUS = .run → exec i s = .next t → t.STATUS = .run → t.pc = nextPc s i) ∧
  (∀ s : State, s.pc.toNat + 2 ≤ 4096 →
    (s.pc + 2).toNat = s.pc.toNat + 2 ∧ (s.pc + 4).toNat = s.pc.toNat + 4) ∧
  (∀ s : State, s.STATUS = .run → 4096 < s.pc.toNat + 2 → Raises .memoryOutOfRange s)

/-- Every step that completes ends with each timer one lower, or at 0: the value Fx15 or Fx18 wrote in this step
if it was one of them, else the value before the step (D24; log 14). That Fx15 writes V[x] to DT and Fx18 to ST
is D29 (log 4, PRESUMED). -/
def Obligations.EveryCompletedStepTicksBothTimers : Prop :=
  ∀ (s t : State) (i : Instr), fetchInstr s = .ok i → Completes s t →
    t.DT.toNat = (match i with | .ldDtV x => s.V[x].toNat | _ => s.DT.toNat) - 1 ∧
    t.ST.toNat = (match i with | .ldStV x => s.V[x].toNat | _ => s.ST.toNat) - 1

/-- After Fx15 with the value v, the Fx07 that is the k-th step after it reads max(v − k, 0), when no Fx15 comes
between (70_reset_and_hazards.md, Hazards; it rests on D24 and D29: log 4, log 14). -/
def Obligations.DelayTimerReadsItsValueLessTheStepsSince : Prop :=
  ∀ (x y : Reg) (is : List Instr) (s t : State),
    SafeRun (.ldDtV x :: is ++ [.ldVDt y]) s t → (∀ z, .ldDtV z ∉ is) →
    t.V[y].toNat = s.V[x].toNat - (is.length + 1)

/-! ### Which instruction reaches which state -/

/-- Only Cxkk reads the random byte: any other instruction does the same whatever draws have been made
(10_state.md, Interface). `draws` is the model's own field (log 2). -/
def Obligations.OnlyRndReadsTheRandomByte : Prop :=
  ∀ (i : Instr) (s : State) (d : Nat), (∀ x kk, i ≠ .rnd x kk) →
    exec i { s with draws := d } = mapNext (fun t => { t with draws := d }) (exec i s)

/-- The sound timer is never read by an instruction: Fx18 overwrites it whatever it was, and every other
instruction does the same whatever it is and leaves it. That Fx18 is the one that writes it, and Fx07 and Fx15
leave it alone, is D29 (log 4, PRESUMED). -/
def Obligations.NoInstructionReadsTheSoundTimer : Prop :=
  ∀ (i : Instr) (s : State) (v : Byte),
    exec i { s with ST := v } =
      match i with
      | .ldStV _ => exec i s
      | _ => mapNext (fun t => { t with ST := v }) (exec i s)

/-- The stack is reached only by 2nnn and 00EE, the framebuffer only by 00E0 and Dxyn, the keys only by Ex9E,
ExA1 and Fx0A (and no instruction writes them), the delay timer only by Fx07 and Fx15: any other instruction
does the same whatever they hold, and leaves them. That Fx07 and Fx15, and not Fx18, are the ones that reach the
delay timer is D29 (log 4, PRESUMED). -/
def Obligations.StateArraysAreReachedOnlyByTheirInstructions : Prop :=
  ∀ (i : Instr) (s : State),
    (i ≠ .ret → (∀ nnn, i ≠ .call nnn) → ∀ S SP,
      exec i { s with S := S, SP := SP } = mapNext (fun t => { t with S := S, SP := SP }) (exec i s)) ∧
    (i ≠ .cls → (∀ x y n, i ≠ .drw x y n) → ∀ FB,
      exec i { s with FB := FB } = mapNext (fun t => { t with FB := FB }) (exec i s)) ∧
    ((∀ x, i ≠ .skp x) → (∀ x, i ≠ .sknp x) → (∀ x, i ≠ .ldVKey x) → ∀ KEY,
      exec i { s with KEY := KEY } = mapNext (fun t => { t with KEY := KEY }) (exec i s)) ∧
    (∀ t, exec i s = .next t → t.KEY = s.KEY) ∧
    ((∀ x, i ≠ .ldVDt x) → (∀ x, i ≠ .ldDtV x) → ∀ DT,
      exec i { s with DT := DT } = mapNext (fun t => { t with DT := DT }) (exec i s))

/-- Annn, Fx1E and Fx29 write I and no other instruction does; Dxyn, Fx1E, Fx33, Fx55 and Fx65 read I, and every
other instruction does the same whatever value of 0x0000–0xFFFF it holds, with no error; above 4096 it is an error
of the four that use it as a memory address (10_state.md, Index register). That Fx33, Fx55 and Fx65 keep I and
Fx1E adds modulo 2^16 is D12 and D13 (log 10), that Dxyn with n = 0 faults too D17 (log 13), and that the fault
changes nothing else D6 (log 14). -/
def Obligations.IndexIsReachedOnlyByItsInstructions : Prop :=
  (∀ (i : Instr) (s t : State), exec i s = .next t →
    (∀ nnn, i ≠ .ldI nnn) → (∀ x, i ≠ .addIV x) → (∀ x, i ≠ .ldFV x) → t.I = s.I) ∧
  (∀ (i : Instr) (s : State) (v : Word),
    (∀ x y n, i ≠ .drw x y n) → (∀ x, i ≠ .addIV x) → (∀ x, i ≠ .ldBV x) → (∀ x, i ≠ .ldMemV x) →
    (∀ x, i ≠ .ldVMem x) →
    exec i { s with I := v } =
      match i with
      | .ldI _ | .ldFV _ => exec i s
      | _ => mapNext (fun t => { t with I := v }) (exec i s)) ∧
  (∀ (nnn : Imm12) (x : Reg) (s : State),
    (∃ t, exec (.ldI nnn) s = .next t ∧ t.I = zext16 nnn) ∧
    (∃ t, exec (.addIV x) s = .next t ∧ t.I = s.I + zext16 s.V[x]) ∧
    (∃ t, exec (.ldFV x) s = .next t ∧ t.I = zext16 s.V[x] * 5)) ∧
  (∀ (x y : Reg) (n : Rows) (s : State), 4096 < s.I.toNat → ∀ i ∈ [.drw x y n, .ldBV x, .ldMemV x, .ldVMem x],
    exec i s = .next { s with STATUS := .fault .memoryOutOfRange })

/-- At execute only Fx33 and Fx55 write memory, and only Dxyn and Fx65 read it (20_memory.md, Address spaces). -/
def Obligations.MemoryIsReachedOnlyByItsAccesses : Prop :=
  (∀ (i : Instr) (s t : State), exec i s = .next t → (∀ x, i ≠ .ldBV x) → (∀ x, i ≠ .ldMemV x) →
    ∀ a, t.mem.read a = s.mem.read a) ∧
  (∀ (i : Instr) (s : State) (m : Memory),
    (∀ x y n, i ≠ .drw x y n) → (∀ x, i ≠ .ldVMem x) → (∀ x, i ≠ .ldBV x) → (∀ x, i ≠ .ldMemV x) →
    exec i { s with mem := m } = mapNext (fun t => { t with mem := m }) (exec i s))

/-- VF changes only under 8xy4–8xy7, 8xyE and Dxyn, or an instruction that names it as destination
(10_state.md, General registers). That 8xy1–8xy3 and Fx1E write no flag is D11 and D13 (log 10), that Fx07 has a
destination D29 (log 4, PRESUMED). -/
def Obligations.VfIsWrittenOnlyAsFlagOrDestination : Prop :=
  ∀ (i : Instr) (s t : State), exec i s = .next t → t.V[VF] ≠ s.V[VF] → mayWriteVF i = true

/-- The frames of the instructions whose results are stated in statements of their own without one: each changes
nothing but pc and what stands beside it, 2nnn no stack slot but the one it pushes into, and 00EE none. That an
unlisted effect is no effect is D31 (log 10), the slot a pop leaves is D30 (log 20). -/
def Obligations.InstructionsChangeOnlyTheirResults : Prop :=
  ∀ (x y : Reg) (kk : Byte) (nnn : Imm12) (s : State),
    (∀ q ∈ [(Instr.cls, ({ FB := true } : Footprint)), (.jp nnn, {}), (.jpV0 nnn, {}), (.seVk x kk, {}),
        (.sneVk x kk, {}), (.ldVk x kk, { regs := [x] }), (.addVk x kk, { regs := [x] }),
        (.ldVv x y, { regs := [x] }), (.ldI nnn, { I := true }), (.ldFV x, { I := true })],
      ∃ t, exec q.1 s = .next t ∧ Frame q.2 s t) ∧
    (s.SP.val < 16 → ∃ t, exec (.call nnn) s = .next t ∧ Frame { stack := true } s t ∧
      ∀ k : Fin 16, k.val ≠ s.SP.val → t.S[k] = s.S[k]) ∧
    (s.SP.val ≠ 0 → ∃ t, exec .ret s = .next t ∧ Frame { stack := true } s t ∧ t.S = s.S)

/-! ### Display -/

/-- 44_display.md R190: 00E0 turns every pixel off and advances pc; VF is unchanged. -/
def Obligations.ClsTurnsEveryPixelOff : Prop :=
  Encodes 0x00E0 0xFFFF (fun _ => .cls) ∧
  ∀ s : State, ∃ t, exec .cls s = .next t ∧
    (∀ r c, t.FB.get r c = false) ∧ t.pc = s.pc + 2 ∧ t.V[VF] = s.V[VF]

/-- Dxyn toggles exactly the pixels under the sprite's set bits, each at its own wrapped coordinates; VF is 1 if
one of them was on before the draw, else 0, the coordinates being read before VF is written; n = 0 draws nothing
and leaves VF = 0; out of range it faults with no effect. Bit 7 leftmost, the wrap of every pixel and n = 0 are
D16 (log 5), the latch D8 (log 11), the range at n = 0 D17 (log 13), the precise fault D6 (log 14). -/
def Obligations.DrwTogglesTheSpriteAndReportsCollision : Prop :=
  Encodes 0xD000 0xF000 (fun w => .drw (xField w) (yField w) (nField w)) ∧
  ∀ (x y : Reg) (n : Rows) (s : State),
    (s.I.toNat + n.val ≤ 4096 → ∃ t, exec (.drw x y n) s = .next t ∧
      (∀ j i, j < n.val → i < 8 →
        t.FB.get (Fin.ofNat 32 (s.V[y].toNat + j)) (Fin.ofNat 64 (s.V[x].toNat + i)) =
          (s.FB.get (Fin.ofNat 32 (s.V[y].toNat + j)) (Fin.ofNat 64 (s.V[x].toNat + i)) ^^
            (s.mem.read (s.I.toNat + j)).getLsbD (7 - i))) ∧
      (∀ r c, (∀ j i, j < n.val → i < 8 →
          ¬ (r = Fin.ofNat 32 (s.V[y].toNat + j) ∧ c = Fin.ofNat 64 (s.V[x].toNat + i))) →
        t.FB.get r c = s.FB.get r c) ∧
      (t.V[VF] = 1 ∨ t.V[VF] = 0) ∧
      (t.V[VF] = 1 ↔ ∃ j i, j < n.val ∧ i < 8 ∧ (s.mem.read (s.I.toNat + j)).getLsbD (7 - i) = true ∧
        s.FB.get (Fin.ofNat 32 (s.V[y].toNat + j)) (Fin.ofNat 64 (s.V[x].toNat + i)) = true) ∧
      t.pc = s.pc + 2 ∧ Frame { regs := [VF], FB := true } s t) ∧
    (4096 < s.I.toNat + n.val →
      exec (.drw x y n) s = .next { s with STATUS := .fault .memoryOutOfRange })

/-- Drawing a sprite twice in succession at the same position restores the framebuffer exactly, when I, the
sprite's bytes, the framebuffer and the two coordinates are unchanged in between; the second draw's VF is 1 if
and only if some set bit's pixel was off before the first draw (44_display.md; C4). Bit 7 leftmost and the wrap of
every pixel are D16 (log 5, PRESUMED). -/
def Obligations.DrawingTwiceRestoresTheFramebuffer : Prop :=
  ∀ (x y : Reg) (n : Rows) (s t s' : State), s.I.toNat + n.val ≤ 4096 → exec (.drw x y n) s = .next t →
    s'.FB = t.FB → s'.I = s.I → (∀ j, j < n.val → s'.mem.read (s.I.toNat + j) = s.mem.read (s.I.toNat + j)) →
    s'.V[x] = s.V[x] → s'.V[y] = s.V[y] →
    ∃ u, exec (.drw x y n) s' = .next u ∧ u.FB = s.FB ∧ (u.V[VF] = 1 ∨ u.V[VF] = 0) ∧
      (u.V[VF] = 1 ↔ ∃ j i, j < n.val ∧ i < 8 ∧ (s.mem.read (s.I.toNat + j)).getLsbD (7 - i) = true ∧
        s.FB.get (Fin.ofNat 32 (s.V[y].toNat + j)) (Fin.ofNat 64 (s.V[x].toNat + i)) = false)

/-! ### Control flow -/

/-- 41_control_flow.md R120: 00EE pops the top slot into pc, with no + 2, and does not clear the slot (a popped
0x1000 faults at the next fetch); with SP = 0 it raises StackUnderflow and no other state changes; and after a
2nnn, with the stack as that call left it, it goes to the instruction after the call. (That the slot is not
cleared is D30: log 20.) -/
def Obligations.RetPopsThePcOrUnderflows : Prop :=
  Encodes 0x00EE 0xFFFF (fun _ => .ret) ∧
  (∀ (s : State) (j : Fin 16), s.SP.val = j.val + 1 → ∃ t, exec .ret s = .next t ∧
    t.SP.val = j.val ∧ t.pc = s.S[j] ∧ t.S = s.S ∧ t.V[VF] = s.V[VF] ∧
    (s.S[j] = 0x1000 → s.STATUS = .run → Raises .memoryOutOfRange t)) ∧
  (∀ s : State, s.SP.val = 0 → exec .ret s = .next { s with STATUS := .fault .stackUnderflow }) ∧
  (∀ (nnn : Imm12) (s t s' : State), s.SP.val < 16 → exec (.call nnn) s = .next t →
    s'.S = t.S → s'.SP = t.SP →
    ∃ u, exec .ret s' = .next u ∧ u.pc = s.pc + 2 ∧ u.SP = s.SP)

/-- 41_control_flow.md R121: 1nnn sets pc to nnn, whatever nnn is, and writes no flag; 0xFFF faults at the next
fetch; and the step of a jump to itself changes nothing but the timers. -/
def Obligations.JpSetsPc : Prop :=
  Encodes 0x1000 0xF000 (fun w => .jp (nnnField w)) ∧
  (∀ (nnn : Imm12) (s : State), ∃ t, exec (.jp nnn) s = .next t ∧ t.pc.toNat = nnn.toNat ∧ t.V[VF] = s.V[VF] ∧
    (nnn = 0xFFF → s.STATUS = .run → Raises .memoryOutOfRange t)) ∧
  (∀ (nnn : Imm12) (s : State), s.STATUS = .run → fetchInstr s = .ok (.jp nnn) → s.pc.toNat = nnn.toNat →
    step s = .next { s with DT := if s.DT = 0 then 0 else s.DT - 1, ST := if s.ST = 0 then 0 else s.ST - 1 })

/-- 41_control_flow.md R122: 2nnn pushes pc + 2 and sets pc to nnn; with SP = 16 it raises StackOverflow and no
other state changes; so in steps that all call (a call to its own address), the 17th after SP was 0 faults. -/
def Obligations.CallPushesTheReturnAddressOrOverflows : Prop :=
  Encodes 0x2000 0xF000 (fun w => .call (nnnField w)) ∧
  (∀ (nnn : Imm12) (s : State) (j : Fin 16), s.SP.val = j.val → ∃ t, exec (.call nnn) s = .next t ∧
    t.S[j] = s.pc + 2 ∧ t.SP.val = j.val + 1 ∧ t.pc.toNat = nnn.toNat ∧ t.V[VF] = s.V[VF]) ∧
  (∀ (nnn : Imm12) (s : State), s.SP.val = 16 →
    exec (.call nnn) s = .next { s with STATUS := .fault .stackOverflow }) ∧
  (∀ (nnn : Imm12) (s t : State), s.SP.val = 0 → SafeRun (List.replicate 16 (.call nnn)) s t →
    fetchInstr t = .ok (.call nnn) → Raises .stackOverflow t)

/-- 41_control_flow.md R123: Bnnn sets pc to (V0 + nnn) & 0xFFF, and writes no flag. -/
def Obligations.JpV0SetsPcToTheMaskedSum : Prop :=
  Encodes 0xB000 0xF000 (fun w => .jpV0 (nnnField w)) ∧
  ∀ (nnn : Imm12) (s : State), ∃ t, exec (.jpV0 nnn) s = .next t ∧
    t.pc.toNat = (s.V[(0 : Reg)].toNat + nnn.toNat) % 4096 ∧ t.V[VF] = s.V[VF]

/-- 41_control_flow.md R125 and R126: 3xkk and 4xkk skip by comparing V[x] with kk, and write no flag. -/
def Obligations.ByteSkipsCompareWithTheImmediate : Prop :=
  Encodes 0x3000 0xF000 (fun w => .seVk (xField w) (kkField w)) ∧
  Encodes 0x4000 0xF000 (fun w => .sneVk (xField w) (kkField w)) ∧
  ∀ (x : Reg) (kk : Byte) (s : State),
    (∃ t, exec (.seVk x kk) s = .next t ∧ t.V[VF] = s.V[VF] ∧
      t.pc = if s.V[x] = kk then s.pc + 4 else s.pc + 2) ∧
    (∃ t, exec (.sneVk x kk) s = .next t ∧ t.V[VF] = s.V[VF] ∧
      t.pc = if s.V[x] = kk then s.pc + 2 else s.pc + 4)

/-- 5xy0 and 9xy0 skip by comparing V[x] with V[y], and change only pc; with another low nibble the word is
illegal (D4; log 7). -/
def Obligations.RegisterSkipsCompareTwoRegisters : Prop :=
  Encodes 0x5000 0xF00F (fun w => .seVv (xField w) (yField w)) ∧
  Encodes 0x9000 0xF00F (fun w => .sneVv (xField w) (yField w)) ∧
  (∀ w : Word, nBits w ≠ 0 → (opField w = 0x5 → decode w = .error .family5) ∧
    (opField w = 0x9 → decode w = .error .family9)) ∧
  ∀ (x y : Reg) (s : State),
    (∃ t, exec (.seVv x y) s = .next t ∧ Frame {} s t ∧
      t.pc = if s.V[x] = s.V[y] then s.pc + 4 else s.pc + 2) ∧
    (∃ t, exec (.sneVv x y) s = .next t ∧ Frame {} s t ∧
      t.pc = if s.V[x] = s.V[y] then s.pc + 2 else s.pc + 4)

/-! ### Register loads and the ALU -/

/-- 42_register_alu.md R140 and R141: 6xkk loads kk; 7xkk adds kk modulo 256; neither writes VF unless x = F. -/
def Obligations.ImmediateFormsLoadAndAddWithoutFlag : Prop :=
  Encodes 0x6000 0xF000 (fun w => .ldVk (xField w) (kkField w)) ∧
  Encodes 0x7000 0xF000 (fun w => .addVk (xField w) (kkField w)) ∧
  ∀ (x : Reg) (kk : Byte) (s : State),
    (∃ t, exec (.ldVk x kk) s = .next t ∧ t.V[x] = kk ∧ t.pc = s.pc + 2 ∧ (x ≠ VF → t.V[VF] = s.V[VF])) ∧
    (∃ t, exec (.addVk x kk) s = .next t ∧ t.V[x].toNat = (s.V[x].toNat + kk.toNat) % 256 ∧
      t.pc = s.pc + 2 ∧ (x ≠ VF → t.V[VF] = s.V[VF]))

/-- 42_register_alu.md R142: 8xy0 copies V[y] to V[x] and writes VF only as destination; with x = y it changes
only pc. -/
def Obligations.LdVvCopiesARegister : Prop :=
  Encodes 0x8000 0xF00F (fun w => .ldVv (xField w) (yField w)) ∧
  ∀ (x y : Reg) (s : State), ∃ t, exec (.ldVv x y) s = .next t ∧ t.V[x] = s.V[y] ∧
    t.pc = s.pc + 2 ∧ (x ≠ VF → t.V[VF] = s.V[VF]) ∧ (x = y → t = { s with pc := s.pc + 2 })

/-- 8xy1, 8xy2 and 8xy3 are bitwise OR, AND and XOR; VF changes only when it is V[x] (D11; log 10). -/
def Obligations.LogicOperationsWriteNoFlag : Prop :=
  Encodes 0x8001 0xF00F (fun w => .orVv (xField w) (yField w)) ∧
  Encodes 0x8002 0xF00F (fun w => .andVv (xField w) (yField w)) ∧
  Encodes 0x8003 0xF00F (fun w => .xorVv (xField w) (yField w)) ∧
  ∀ (x y : Reg) (s : State),
    (∃ t, exec (.orVv x y) s = .next t ∧ t.V[x] = s.V[x] ||| s.V[y] ∧ t.pc = s.pc + 2 ∧
      Frame { regs := [x] } s t) ∧
    (∃ t, exec (.andVv x y) s = .next t ∧ t.V[x] = s.V[x] &&& s.V[y] ∧ t.pc = s.pc + 2 ∧
      Frame { regs := [x] } s t) ∧
    (∃ t, exec (.xorVv x y) s = .next t ∧ t.V[x] = s.V[x] ^^^ s.V[y] ∧ t.pc = s.pc + 2 ∧
      Frame { regs := [x] } s t)

/-- 8xy4 adds modulo 256 and VF is the carry; with x = F the flag is what VF ends with, and with y = F the old VF
is the addend (D8; log 11). -/
def Obligations.AddVvAddsWithCarryIntoVf : Prop :=
  Encodes 0x8004 0xF00F (fun w => .addVv (xField w) (yField w)) ∧
  ∀ (x y : Reg) (s : State), ∃ t, exec (.addVv x y) s = .next t ∧
    (x ≠ VF → t.V[x].toNat = (s.V[x].toNat + s.V[y].toNat) % 256) ∧
    t.V[VF] = (if 255 < s.V[x].toNat + s.V[y].toNat then 1 else 0) ∧
    t.pc = s.pc + 2 ∧ Frame { regs := [x, VF] } s t

/-- 8xy5 and 8xy7 subtract modulo 256, and VF is 1 exactly when the minuend is strictly greater; the flag is
written last (C2, D9 and D8; log 8, log 11). -/
def Obligations.SubtractionsWriteStrictNotBorrow : Prop :=
  Encodes 0x8005 0xF00F (fun w => .sub (xField w) (yField w)) ∧
  Encodes 0x8007 0xF00F (fun w => .subn (xField w) (yField w)) ∧
  ∀ (x y : Reg) (s : State),
    (∃ t, exec (.sub x y) s = .next t ∧
      (x ≠ VF → t.V[x].toNat = (256 + s.V[x].toNat - s.V[y].toNat) % 256) ∧
      t.V[VF] = (if s.V[y].toNat < s.V[x].toNat then 1 else 0) ∧
      t.pc = s.pc + 2 ∧ Frame { regs := [x, VF] } s t) ∧
    (∃ t, exec (.subn x y) s = .next t ∧
      (x ≠ VF → t.V[x].toNat = (256 + s.V[y].toNat - s.V[x].toNat) % 256) ∧
      t.V[VF] = (if s.V[x].toNat < s.V[y].toNat then 1 else 0) ∧
      t.pc = s.pc + 2 ∧ Frame { regs := [x, VF] } s t)

/-- 8xy6 and 8xyE shift V[x] by one place and put the dropped bit into VF, last; y makes no difference (D10 and
D8; log 9, log 11). -/
def Obligations.ShiftsDropOneBitIntoVf : Prop :=
  Encodes 0x8006 0xF00F (fun w => .shr (xField w) (yField w)) ∧
  Encodes 0x800E 0xF00F (fun w => .shl (xField w) (yField w)) ∧
  ∀ (x y : Reg) (s : State),
    (∃ t, exec (.shr x y) s = .next t ∧ (x ≠ VF → t.V[x].toNat = s.V[x].toNat / 2) ∧
      t.V[VF].toNat = s.V[x].toNat % 2 ∧ t.pc = s.pc + 2 ∧ Frame { regs := [x, VF] } s t) ∧
    (∃ t, exec (.shl x y) s = .next t ∧ (x ≠ VF → t.V[x].toNat = s.V[x].toNat * 2 % 256) ∧
      t.V[VF].toNat = s.V[x].toNat / 128 ∧ t.pc = s.pc + 2 ∧ Frame { regs := [x, VF] } s t) ∧
    (∀ y', exec (.shr x y) s = exec (.shr x y') s ∧ exec (.shl x y) s = exec (.shl x y') s)

/-- Cxkk writes the step's random byte AND kk. The byte is free: the model's `Config.freeByte` at the state's
count of draws, whatever it is, and the draw is used up (log 2). -/
def Obligations.RndWritesTheFreeByteAndKk : Prop :=
  Encodes 0xC000 0xF000 (fun w => .rnd (xField w) (kkField w)) ∧
  ∀ (x : Reg) (kk : Byte) (s : State), ∃ t, exec (.rnd x kk) s = .next t ∧
    t.V[x] = Config.freeByte s.draws &&& kk ∧ t.draws = s.draws + 1 ∧
    t.pc = s.pc + 2 ∧ Frame { regs := [x], draws := true } s t

/-! ### The index register and memory transfers -/

/-- 43_index_memory.md R170 and R172: Annn loads nnn into I; Fx29 loads V[x] * 5, the whole register, into I; no
flag is written and no memory accessed. An access of extent 2 or more at I = 0xFFF faults later. -/
def Obligations.IndexLoadsTakeNnnAndTheGlyphAddress : Prop :=
  Encodes 0xA000 0xF000 (fun w => .ldI (nnnField w)) ∧
  Encodes 0xF029 0xF0FF (fun w => .ldFV (xField w)) ∧
  ∀ (nnn : Imm12) (x : Reg) (s : State),
    (∃ t, exec (.ldI nnn) s = .next t ∧ t.I.toNat = nnn.toNat ∧ t.pc = s.pc + 2 ∧ t.V[VF] = s.V[VF] ∧
      (∀ m, exec (.ldI nnn) { s with mem := m } = .next { t with mem := m })) ∧
    (∃ t, exec (.ldFV x) s = .next t ∧ t.I.toNat = s.V[x].toNat * 5 ∧ t.pc = s.pc + 2 ∧ t.V[VF] = s.V[VF] ∧
      (∀ m, exec (.ldFV x) { s with mem := m } = .next { t with mem := m })) ∧
    (s.I = 0xFFF → exec (.ldBV x) s = .next { s with STATUS := .fault .memoryOutOfRange } ∧
      (∀ (y : Reg) (n : Rows), 2 ≤ n.val →
        exec (.drw x y n) s = .next { s with STATUS := .fault .memoryOutOfRange }) ∧
      (x ≠ 0 → exec (.ldMemV x) s = .next { s with STATUS := .fault .memoryOutOfRange } ∧
        exec (.ldVMem x) s = .next { s with STATUS := .fault .memoryOutOfRange }))

/-- Fx1E adds V[x] to I modulo 2^16, writes no flag and raises no fault (D13; log 10). -/
def Obligations.AddIVAddsModulo16Bits : Prop :=
  Encodes 0xF01E 0xF0FF (fun w => .addIV (xField w)) ∧
  ∀ (x : Reg) (s : State), ∃ t, exec (.addIV x) s = .next t ∧
    t.I.toNat = (s.I.toNat + s.V[x].toNat) % 65536 ∧ t.pc = s.pc + 2 ∧ Frame { I := true } s t

/-- Fx33 stores the hundreds, tens and ones of V[x] at I, I+1 and I+2; out of range it faults with nothing
written. I is unchanged by D12 (log 10), the precise fault is D6 (log 14). -/
def Obligations.LdBVStoresThreeDigitsOrFaults : Prop :=
  Encodes 0xF033 0xF0FF (fun w => .ldBV (xField w)) ∧
  ∀ (x : Reg) (s : State),
    (s.I.toNat + 3 ≤ 4096 → ∃ t, exec (.ldBV x) s = .next t ∧
      (t.mem.read s.I.toNat).toNat = s.V[x].toNat / 100 ∧
      (t.mem.read (s.I.toNat + 1)).toNat = s.V[x].toNat / 10 % 10 ∧
      (t.mem.read (s.I.toNat + 2)).toNat = s.V[x].toNat % 10 ∧
      t.pc = s.pc + 2 ∧ Frame { base := s.I.toNat, len := 3 } s t) ∧
    (4096 < s.I.toNat + 3 → exec (.ldBV x) s = .next { s with STATUS := .fault .memoryOutOfRange })

/-- Fx55 stores V0..V[x] from I up, V0 at the lowest address; out of range it faults with nothing written. I is
unchanged by D12 (log 10), the precise fault is D6 (log 14). -/
def Obligations.LdMemVStoresTheBlockOrFaults : Prop :=
  Encodes 0xF055 0xF0FF (fun w => .ldMemV (xField w)) ∧
  ∀ (x : Reg) (s : State),
    (s.I.toNat + (x.val + 1) ≤ 4096 → ∃ t, exec (.ldMemV x) s = .next t ∧
      (∀ r : Reg, r ≤ x → t.mem.read (s.I.toNat + r.val) = s.V[r]) ∧
      t.pc = s.pc + 2 ∧ Frame { base := s.I.toNat, len := x.val + 1 } s t) ∧
    (4096 < s.I.toNat + (x.val + 1) →
      exec (.ldMemV x) s = .next { s with STATUS := .fault .memoryOutOfRange })

/-- Fx65 loads V0..V[x] from I up; out of range it faults with no register changed. I is unchanged by D12
(log 10), the precise fault is D6 (log 14). -/
def Obligations.LdVMemLoadsTheBlockOrFaults : Prop :=
  Encodes 0xF065 0xF0FF (fun w => .ldVMem (xField w)) ∧
  ∀ (x : Reg) (s : State),
    (s.I.toNat + (x.val + 1) ≤ 4096 → ∃ t, exec (.ldVMem x) s = .next t ∧
      (∀ r : Reg, r ≤ x → t.V[r] = s.mem.read (s.I.toNat + r.val)) ∧
      t.pc = s.pc + 2 ∧ Frame { regs := (List.finRange 16).filter (· ≤ x) } s t) ∧
    (4096 < s.I.toNat + (x.val + 1) →
      exec (.ldVMem x) s = .next { s with STATUS := .fault .memoryOutOfRange })

/-- Fx65 after Fx55 with the same x and I gives V0..V[x] back, whatever the registers hold in between: I is
unchanged by both (D12; log 10). -/
def Obligations.LoadAfterStoreRestoresTheBlock : Prop :=
  ∀ (x : Reg) (s : State) (V : Vector Byte 16), s.I.toNat + (x.val + 1) ≤ 4096 →
    ∃ t u, exec (.ldMemV x) s = .next t ∧ exec (.ldVMem x) { t with V := V } = .next u ∧
      (∀ r : Reg, r ≤ x → u.V[r] = s.V[r]) ∧ (∀ r : Reg, x < r → u.V[r] = V[r])

/-! ### Timers and keys -/

/-- Fx07 reads DT into V[x], Fx15 writes V[x] to DT and Fx18 writes V[x] to ST (before the tick of the same
step). Which opcode does which is D29 (log 4). -/
def Obligations.TimerInstructionsMoveTheTimers : Prop :=
  Encodes 0xF007 0xF0FF (fun w => .ldVDt (xField w)) ∧
  Encodes 0xF015 0xF0FF (fun w => .ldDtV (xField w)) ∧
  Encodes 0xF018 0xF0FF (fun w => .ldStV (xField w)) ∧
  ∀ (x : Reg) (s : State),
    (∃ t, exec (.ldVDt x) s = .next t ∧ t.V[x] = s.DT ∧ t.pc = s.pc + 2 ∧ Frame { regs := [x] } s t) ∧
    (∃ t, exec (.ldDtV x) s = .next t ∧ t.DT = s.V[x] ∧ t.pc = s.pc + 2 ∧ Frame { DT := true } s t) ∧
    (∃ t, exec (.ldStV x) s = .next t ∧ t.ST = s.V[x] ∧ t.pc = s.pc + 2 ∧ Frame { ST := true } s t)

/-- Fx0A loads the lowest pressed key into V[x]; with no key pressed it changes nothing, pc included. The lowest
of several keys is D14 (log 12). -/
def Obligations.LdVKeyTakesTheLowestPressedKeyOrWaits : Prop :=
  Encodes 0xF00A 0xF0FF (fun w => .ldVKey (xField w)) ∧
  ∀ (x : Reg) (s : State),
    (∀ k : Key, s.KEY[k] = true → (∀ j : Key, j < k → s.KEY[j] = false) →
      ∃ t, exec (.ldVKey x) s = .next t ∧ t.V[x].toNat = k.val ∧ t.pc = s.pc + 2 ∧
        Frame { regs := [x] } s t) ∧
    ((∀ k : Key, s.KEY[k] = false) → exec (.ldVKey x) s = .next s)

/-- Ex9E and ExA1 skip on the key that V[x] names, pressed and not pressed, and change only pc; for V[x] > 15
they raise KeyIndexOutOfRange with no effect. The key index V[x] and the fault are C5 and D15 (log 6), the
precise fault D6 (log 14). -/
def Obligations.KeySkipsTestTheKeyInVxOrFault : Prop :=
  Encodes 0xE09E 0xF0FF (fun w => .skp (xField w)) ∧
  Encodes 0xE0A1 0xF0FF (fun w => .sknp (xField w)) ∧
  ∀ (x : Reg) (s : State),
    (∀ k : Key, s.V[x].toNat = k.val →
      (∃ t, exec (.skp x) s = .next t ∧ Frame {} s t ∧
        t.pc = if s.KEY[k] = true then s.pc + 4 else s.pc + 2) ∧
      (∃ t, exec (.sknp x) s = .next t ∧ Frame {} s t ∧
        t.pc = if s.KEY[k] = true then s.pc + 2 else s.pc + 4)) ∧
    (15 < s.V[x].toNat →
      exec (.skp x) s = .next { s with STATUS := .fault .keyIndexOutOfRange } ∧
      exec (.sknp x) s = .next { s with STATUS := .fault .keyIndexOutOfRange })

/-! ### The host's ports -/

/-- A load that is admitted copies the image to 0x200 and changes nothing else, or sets
FAULT(ProgramTooLarge) with no byte written when it has more than 3584 bytes; it closes loading, as every
completed or faulting step does, and a load that is not admitted is refused. Admission is D23 (log 16). -/
def Obligations.LoadCopiesTheImageOnceOrFaults : Prop :=
  ∀ (h : Session) (img : List Byte), h.core.STATUS = .run →
    (h.loadOpen = true →
      (img.length ≤ 3584 → ∃ t, h.act (.load img) = .next ⟨t, false⟩ ∧
        (∀ j (hj : j < img.length), t.mem.read (0x200 + j) = img[j]) ∧
        (∀ a, a < 0x200 ∨ 0x200 + img.length ≤ a → t.mem.read a = h.core.mem.read a) ∧
        t = { h.core with mem := t.mem }) ∧
      (3584 < img.length →
        h.act (.load img) = .next ⟨{ h.core with STATUS := .fault .programTooLarge }, false⟩)) ∧
    (h.loadOpen = false → h.act (.load img) = .refused .loadNotAdmitted) ∧
    (∀ h', h.act .step = .next h' → h'.loadOpen = false)

/-- key_write(k, b) between steps sets KEY[k] to b and has no other effect (D3); after a fault it changes nothing
and answers the fault (log 17). -/
def Obligations.KeyWriteSetsOneKey : Prop :=
  ∀ (h : Session) (k : Key) (b : Bool),
    (h.core.STATUS = .run → ∃ t, h.act (.keyWrite k b) = .next ⟨t, h.loadOpen⟩ ∧
      t.KEY[k] = b ∧ (∀ j : Key, j ≠ k → t.KEY[j] = h.core.KEY[j]) ∧ t = { h.core with KEY := t.KEY }) ∧
    (∀ f, h.core.STATUS = .fault f → h.act (.keyWrite k b) = .fault f)

/-- 10_state.md R44: sound_on is 1 if and only if ST is not 0. -/
def Obligations.SoundIsOnExactlyWhileStIsNotZero : Prop :=
  ∀ s : State, s.soundOn = true ↔ s.ST.toNat ≠ 0

/-- fb_read returns 2048 pixels, FB[r][c] at index r·64 + c (D26; log 20). -/
def Obligations.FbReadIsRowMajor : Prop :=
  ∀ s : State, s.fbRead.length = 2048 ∧
    ∀ (r : Fin 32) (c : Fin 64), s.fbRead[r.val * 64 + c.val]? = some (s.FB.get r c)

/-- The word the host places is the instruction the very next step runs, from any state (log 16, log 21). -/
def Obligations.PlacedWordIsWhatTheNextStepRuns : Prop :=
  ∀ (s : State) (w : Word) (i : Instr), decode w = .ok i →
    step (s.withFetchWord 16 w.toNat) = completeStep (exec i (s.withFetchWord 16 w.toNat)) ∧
    decodeTableWord 16 w.toNat = some i

/-- Stepping without a load finds the word 0x0000 at 0x200 and raises IllegalInstruction (D32, D4; log 7). -/
def Obligations.SteppingWithoutALoadIsIllegal : Prop :=
  Raises .illegalInstruction State.reset
end

