-- ==== Sys2Proof/Laws/Decode.lean ====
section
/-!
SUPPORT. The fields of the words the layouts make, the layouts of any word, and the masks of the opcode map.
-/

namespace Sys2Proof

@[simp] theorem regOfBits_bitsOfReg (r : Reg) : regOfBits (bitsOfReg r) = r := rfl

@[simp] theorem bitsOfReg_regOfBits (b : BitVec 4) : bitsOfReg (regOfBits b) = b := rfl

@[simp] theorem bitsOfReg_toNat (r : Reg) : (bitsOfReg r).toNat = r.val := rfl

@[simp] theorem regOfBits_val (b : BitVec 4) : (regOfBits b).val = b.toNat := rfl

/-! ### The layouts as numbers -/

theorem wordA_toNat (op : BitVec 4) (nnn : Imm12) : (wordA op nnn).toNat = op.toNat * 4096 + nnn.toNat := by
  have h := nnn.isLt
  rw [wordA, BitVec.toNat_append, ← Nat.shiftLeft_add_eq_or_of_lt h, Nat.shiftLeft_eq]

theorem wordXK_toNat (op : BitVec 4) (x : Reg) (kk : Byte) :
    (wordXK op x kk).toNat = op.toNat * 4096 + x.val * 256 + kk.toNat := by
  have h := kk.isLt
  have h' := (bitsOfReg x).isLt
  rw [wordXK, BitVec.toNat_append, ← Nat.shiftLeft_add_eq_or_of_lt h, BitVec.toNat_append,
    ← Nat.shiftLeft_add_eq_or_of_lt h', Nat.shiftLeft_eq, Nat.shiftLeft_eq, bitsOfReg_toNat]
  omega

theorem wordXY_toNat (op : BitVec 4) (x y : Reg) (n : BitVec 4) :
    (wordXY op x y n).toNat = op.toNat * 4096 + x.val * 256 + y.val * 16 + n.toNat := by
  have h := n.isLt
  have h' := (bitsOfReg x).isLt
  have h'' := (bitsOfReg y).isLt
  rw [wordXY, BitVec.toNat_append, ← Nat.shiftLeft_add_eq_or_of_lt h, BitVec.toNat_append,
    ← Nat.shiftLeft_add_eq_or_of_lt h'', BitVec.toNat_append, ← Nat.shiftLeft_add_eq_or_of_lt h',
    Nat.shiftLeft_eq, Nat.shiftLeft_eq, Nat.shiftLeft_eq, bitsOfReg_toNat, bitsOfReg_toNat]
  omega

/-! ### The fields as numbers (30_encoding.md R71) -/

theorem opField_toNat (w : Word) : (opField w).toNat = w.toNat / 4096 := by
  simp only [opField, BitVec.extractLsb'_toNat, Nat.shiftRight_eq_div_pow]
  have := w.isLt
  omega

theorem xField_val (w : Word) : (xField w).val = w.toNat / 256 % 16 := by
  simp only [xField, regOfBits_val, BitVec.extractLsb'_toNat, Nat.shiftRight_eq_div_pow]

theorem yField_val (w : Word) : (yField w).val = w.toNat / 16 % 16 := by
  simp only [yField, regOfBits_val, BitVec.extractLsb'_toNat, Nat.shiftRight_eq_div_pow]

theorem nBits_toNat (w : Word) : (nBits w).toNat = w.toNat % 16 := by
  simp only [nBits, BitVec.extractLsb'_toNat, Nat.shiftRight_eq_div_pow]
  omega

theorem kkField_toNat (w : Word) : (kkField w).toNat = w.toNat % 256 := by
  simp only [kkField, BitVec.extractLsb'_toNat, Nat.shiftRight_eq_div_pow]
  omega

theorem nnnField_toNat (w : Word) : (nnnField w).toNat = w.toNat % 4096 := by
  simp only [nnnField, BitVec.extractLsb'_toNat, Nat.shiftRight_eq_div_pow]
  omega

/-! ### The fields of the layouts -/

section Fields
variable (op : BitVec 4) (nnn : Imm12) (x y : Reg) (kk : Byte) (n : BitVec 4)

@[simp] theorem opField_wordA : opField (wordA op nnn) = op := by
  apply BitVec.eq_of_toNat_eq; rw [opField_toNat, wordA_toNat]; omega

@[simp] theorem nnnField_wordA : nnnField (wordA op nnn) = nnn := by
  apply BitVec.eq_of_toNat_eq; rw [nnnField_toNat, wordA_toNat]; omega

@[simp] theorem opField_wordXK : opField (wordXK op x kk) = op := by
  apply BitVec.eq_of_toNat_eq; rw [opField_toNat, wordXK_toNat]; omega

@[simp] theorem xField_wordXK : xField (wordXK op x kk) = x := by
  apply Fin.ext; rw [xField_val, wordXK_toNat]; omega

@[simp] theorem kkField_wordXK : kkField (wordXK op x kk) = kk := by
  apply BitVec.eq_of_toNat_eq; rw [kkField_toNat, wordXK_toNat]; omega

@[simp] theorem opField_wordXY : opField (wordXY op x y n) = op := by
  apply BitVec.eq_of_toNat_eq; rw [opField_toNat, wordXY_toNat]; omega

@[simp] theorem xField_wordXY : xField (wordXY op x y n) = x := by
  apply Fin.ext; rw [xField_val, wordXY_toNat]; omega

@[simp] theorem yField_wordXY : yField (wordXY op x y n) = y := by
  apply Fin.ext; rw [yField_val, wordXY_toNat]; omega

@[simp] theorem nBits_wordXY : nBits (wordXY op x y n) = n := by
  apply BitVec.eq_of_toNat_eq; rw [nBits_toNat, wordXY_toNat]; omega

@[simp] theorem nField_wordXY : nField (wordXY op x y n) = regOfBits n := by
  rw [nField, nBits_wordXY]

end Fields

/-! ### Every word in each layout -/

theorem wordA_fields (w : Word) : wordA (opField w) (nnnField w) = w := by
  apply BitVec.eq_of_toNat_eq
  rw [wordA_toNat, opField_toNat, nnnField_toNat]
  omega

theorem wordXK_fields (w : Word) : wordXK (opField w) (xField w) (kkField w) = w := by
  apply BitVec.eq_of_toNat_eq
  rw [wordXK_toNat, opField_toNat, xField_val, kkField_toNat]
  omega

theorem wordXY_fields (w : Word) : wordXY (opField w) (xField w) (yField w) (nBits w) = w := by
  apply BitVec.eq_of_toNat_eq
  rw [wordXY_toNat, opField_toNat, xField_val, yField_val, nBits_toNat]
  omega

/-! ### The masks of 30_encoding.md R74 -/

section Masks
variable (op : BitVec 4) (nnn : Imm12) (x y : Reg) (kk : Byte) (n : BitVec 4)

/-- Mask 0xF000 keeps the opcode family. -/
theorem wordA_and : wordA op nnn &&& 0xF000 = wordA op 0 := by
  change (op ++ nnn) &&& ((0xF#4) ++ (0#12)) = op ++ 0#12
  rw [BitVec.and_append]
  congr 1
  · exact BitVec.and_allOnes
  · exact BitVec.and_zero

/-- Mask 0xF0FF keeps the opcode family and the low byte. -/
theorem wordXK_and : wordXK op x kk &&& 0xF0FF = wordXK op 0 kk := by
  change (op ++ bitsOfReg x ++ kk) &&& ((0xF#4) ++ (0#4) ++ (0xFF#8)) = op ++ 0#4 ++ kk
  rw [BitVec.and_append, BitVec.and_append]
  congr 1
  · congr 1
    · exact BitVec.and_allOnes
    · exact BitVec.and_zero
  · exact BitVec.and_allOnes

/-- Mask 0xF00F keeps the opcode family and the low nibble. -/
theorem wordXY_and : wordXY op x y n &&& 0xF00F = wordXY op 0 0 n := by
  change (op ++ bitsOfReg x ++ bitsOfReg y ++ n) &&& ((0xF#4) ++ (0#4) ++ (0#4) ++ (0xF#4)) =
    op ++ 0#4 ++ 0#4 ++ n
  rw [BitVec.and_append, BitVec.and_append, BitVec.and_append]
  congr 1
  · congr 1
    · congr 1
      · exact BitVec.and_allOnes
      · exact BitVec.and_zero
    · exact BitVec.and_zero
  · exact BitVec.and_allOnes

theorem wordXK_and_family : wordXK op x kk &&& 0xF000 = wordA op 0 := by
  rw [← wordA_fields (wordXK op x kk), wordA_and, opField_wordXK]

theorem wordXY_and_family : wordXY op x y n &&& 0xF000 = wordA op 0 := by
  rw [← wordA_fields (wordXY op x y n), wordA_and, opField_wordXY]

end Masks

/-- A word under mask 0xF000. -/
theorem and_F000 (w : Word) : w &&& 0xF000 = wordA (opField w) 0 := by
  conv_lhs => rw [← wordA_fields w]
  exact wordA_and _ _

/-- A word under mask 0xF0FF. -/
theorem and_F0FF (w : Word) : w &&& 0xF0FF = wordXK (opField w) 0 (kkField w) := by
  conv_lhs => rw [← wordXK_fields w]
  exact wordXK_and _ _ _

/-- A word under mask 0xF00F. -/
theorem and_F00F (w : Word) : w &&& 0xF00F = wordXY (opField w) 0 0 (nBits w) := by
  conv_lhs => rw [← wordXY_fields w]
  exact wordXY_and _ _ _ _


/-! ### The decoder, one opcode family at a time (30_encoding.md R75) -/

theorem decode_op0 (w : Word) (h : opField w = 0x0) :
    decode w = decode0 w := by
  simp [decode, h]

theorem decode_op1 (w : Word) (h : opField w = 0x1) :
    decode w = .ok (.jp (nnnField w)) := by
  simp [decode, h]

theorem decode_op2 (w : Word) (h : opField w = 0x2) :
    decode w = .ok (.call (nnnField w)) := by
  simp [decode, h]

theorem decode_op3 (w : Word) (h : opField w = 0x3) :
    decode w = .ok (.seVk (xField w) (kkField w)) := by
  simp [decode, h]

theorem decode_op4 (w : Word) (h : opField w = 0x4) :
    decode w = .ok (.sneVk (xField w) (kkField w)) := by
  simp [decode, h]

theorem decode_op5 (w : Word) (h : opField w = 0x5) :
    decode w = if nBits w = 0 then .ok (.seVv (xField w) (yField w)) else .error .family5 := by
  simp [decode, h]

theorem decode_op6 (w : Word) (h : opField w = 0x6) :
    decode w = .ok (.ldVk (xField w) (kkField w)) := by
  simp [decode, h]

theorem decode_op7 (w : Word) (h : opField w = 0x7) :
    decode w = .ok (.addVk (xField w) (kkField w)) := by
  simp [decode, h]

theorem decode_op8 (w : Word) (h : opField w = 0x8) :
    decode w = decode8 w := by
  simp [decode, h]

theorem decode_op9 (w : Word) (h : opField w = 0x9) :
    decode w = if nBits w = 0 then .ok (.sneVv (xField w) (yField w)) else .error .family9 := by
  simp [decode, h]

theorem decode_opA (w : Word) (h : opField w = 0xA) :
    decode w = .ok (.ldI (nnnField w)) := by
  simp [decode, h]

theorem decode_opB (w : Word) (h : opField w = 0xB) :
    decode w = .ok (.jpV0 (nnnField w)) := by
  simp [decode, h]

theorem decode_opC (w : Word) (h : opField w = 0xC) :
    decode w = .ok (.rnd (xField w) (kkField w)) := by
  simp [decode, h]

theorem decode_opD (w : Word) (h : opField w = 0xD) :
    decode w = .ok (.drw (xField w) (yField w) (nField w)) := by
  simp [decode, h]

theorem decode_opE (w : Word) (h : opField w = 0xE) :
    decode w = decodeE w := by
  simp [decode, h]

theorem decode_opF (w : Word) (h : opField w = 0xF) :
    decode w = decodeF w := by
  simp [decode, h]

/-- A 4-bit field is one of sixteen values. -/
theorem nibble_cases : ∀ n : BitVec 4, n = 0x0 ∨ n = 0x1 ∨ n = 0x2 ∨ n = 0x3 ∨ n = 0x4 ∨ n = 0x5 ∨ n = 0x6 ∨
    n = 0x7 ∨ n = 0x8 ∨ n = 0x9 ∨ n = 0xA ∨ n = 0xB ∨ n = 0xC ∨ n = 0xD ∨ n = 0xE ∨ n = 0xF := by decide

end Sys2Proof
end

