-- ==== Sys2Proof/Laws/Memory.lean ====
section
/-!
SUPPORT. The laws of memory: reading after writing, for any list of cells, and that every operation keeps the
canonical form.
-/

namespace Sys2Proof.Machine

/-! ### Reading after writing -/

theorem read_eraseCell (m : Memory) (a b : Nat) :
    (m.eraseCell a).read b = if b = a then resetByte b else m.read b := by
  induction m with
  | nil => simp [Memory.eraseCell, Memory.read]
  | cons c m ih =>
    obtain ⟨k, u⟩ := c
    by_cases hk : a = k
    · subst hk
      simp only [Memory.eraseCell, if_true, ih, Memory.read]
      split <;> rfl
    · simp only [Memory.eraseCell, if_neg hk, Memory.read, ih]
      by_cases hb : b = k
      · subst hb; simp [Ne.symm hk]
      · simp [hb]

/-- No cell of the list is at address `a`. -/
def Memory.Free (a : Nat) (m : Memory) : Prop := ∀ c ∈ m, c.1 ≠ a

theorem eraseCell_free (m : Memory) (a : Nat) : (m.eraseCell a).Free a := by
  induction m with
  | nil => intro c hc; cases hc
  | cons c m ih =>
    obtain ⟨k, u⟩ := c
    by_cases hk : a = k
    · simpa [Memory.eraseCell, hk] using ih
    · intro c hc
      rw [Memory.eraseCell, if_neg hk] at hc
      rcases List.mem_cons.1 hc with rfl | hc
      · exact fun e => hk e.symm
      · exact ih c hc

theorem read_insertCell (m : Memory) (a b : Nat) (v : Byte) (h : m.Free a) :
    (m.insertCell a v).read b = if b = a then v else m.read b := by
  induction m with
  | nil => simp [Memory.insertCell, Memory.read]
  | cons c m ih =>
    obtain ⟨k, u⟩ := c
    have hk : k ≠ a := h (k, u) (by simp)
    have hm : Memory.Free a m := fun c hc => h c (List.mem_cons_of_mem _ hc)
    by_cases hlt : a < k
    · simp [Memory.insertCell, hlt, Memory.read]
    · simp only [Memory.insertCell, if_neg hlt, Memory.read, ih hm]
      by_cases hb : b = k
      · subst hb; simp [hk]
      · simp [hb]

/-- Reading one byte after writing one byte, at the same address or another. -/
theorem read_write (m : Memory) (a b : Nat) (v : Byte) :
    (m.write a v).read b = if b = a then v else m.read b := by
  unfold Memory.write
  split
  · next h => rw [read_eraseCell]; split <;> simp_all
  · rw [read_insertCell _ _ _ _ (eraseCell_free m a), read_eraseCell]; split <;> rfl

theorem read_write_same (m : Memory) (a : Nat) (v : Byte) : (m.write a v).read a = v := by
  rw [read_write, if_pos rfl]

theorem read_write_other (m : Memory) {a b : Nat} (v : Byte) (h : b ≠ a) :
    (m.write a v).read b = m.read b := by
  rw [read_write, if_neg h]

/-- Reading outside the bytes a block write stores. -/
theorem read_writeBytes_other (m : Memory) (a : Nat) (bs : List Byte) (b : Nat)
    (h : b < a ∨ a + bs.length ≤ b) : (m.writeBytes a bs).read b = m.read b := by
  induction bs generalizing m a with
  | nil => rfl
  | cons v bs ih =>
    rw [Memory.writeBytes, ih _ _ (by simp only [List.length_cons] at h; omega), read_write_other]
    simp only [List.length_cons] at h
    omega

/-- Reading a byte that a block write stores. -/
theorem read_writeBytes_stored (m : Memory) (a : Nat) (bs : List Byte) (j : Nat) (h : j < bs.length) :
    (m.writeBytes a bs).read (a + j) = bs[j] := by
  induction bs generalizing m a j with
  | nil => simp at h
  | cons v bs ih =>
    cases j with
    | zero => rw [Memory.writeBytes, read_writeBytes_other _ _ _ _ (by omega)]; exact read_write_same m a v
    | succ j =>
      have := ih (m.write a v) (a + 1) j (by simpa using h)
      simpa [Memory.writeBytes, Nat.add_assoc, Nat.add_comm 1 j] using this

theorem readBytes_length (m : Memory) (a n : Nat) : (m.readBytes a n).length = n := by
  induction n generalizing a with
  | zero => rfl
  | succ n ih => simp [Memory.readBytes, ih]

theorem readBytes_get (m : Memory) (a n j : Nat) (h : j < (m.readBytes a n).length) :
    (m.readBytes a n)[j] = m.read (a + j) := by
  induction n generalizing a j with
  | zero => simp [Memory.readBytes] at h
  | succ n ih =>
    cases j with
    | zero => simp [Memory.readBytes]
    | succ j => simp [Memory.readBytes, ih, Nat.add_assoc, Nat.add_comm 1 j]

/-! ### The canonical form -/

theorem wfFrom_mono {lo lo' : Nat} (m : Memory) (h : lo' ≤ lo) (hw : m.wfFrom lo = true) :
    m.wfFrom lo' = true := by
  cases m with
  | nil => rfl
  | cons c m =>
    obtain ⟨k, u⟩ := c
    simp only [Memory.wfFrom, Bool.and_eq_true, decide_eq_true_eq] at hw ⊢
    exact ⟨⟨⟨by omega, hw.1.1.2⟩, hw.1.2⟩, hw.2⟩

theorem wfFrom_eraseCell (m : Memory) (lo a : Nat) (hw : m.wfFrom lo = true) :
    (m.eraseCell a).wfFrom lo = true := by
  induction m generalizing lo with
  | nil => rfl
  | cons c m ih =>
    obtain ⟨k, u⟩ := c
    simp only [Memory.wfFrom, Bool.and_eq_true, decide_eq_true_eq] at hw
    by_cases hk : a = k
    · simp only [Memory.eraseCell, if_pos hk]
      exact ih lo (wfFrom_mono m (by omega) hw.2)
    · simp only [Memory.eraseCell, if_neg hk, Memory.wfFrom, Bool.and_eq_true, decide_eq_true_eq]
      exact ⟨hw.1, ih _ hw.2⟩

theorem wfFrom_insertCell (m : Memory) (lo a : Nat) (v : Byte) (hw : m.wfFrom lo = true) (hf : m.Free a)
    (hlo : lo ≤ a) (ha : a < Config.memSize) (hv : v ≠ resetByte a) :
    (m.insertCell a v).wfFrom lo = true := by
  induction m generalizing lo with
  | nil => simp_all [Memory.insertCell, Memory.wfFrom]
  | cons c m ih =>
    obtain ⟨k, u⟩ := c
    have hk : k ≠ a := hf (k, u) (by simp)
    simp only [Memory.wfFrom, Bool.and_eq_true, decide_eq_true_eq] at hw
    by_cases hlt : a < k
    · simp only [Memory.insertCell, if_pos hlt, Memory.wfFrom, Bool.and_eq_true, decide_eq_true_eq]
      exact ⟨⟨⟨hlo, ha⟩, by simpa using hv⟩, ⟨⟨by omega, hw.1.1.2⟩, hw.1.2⟩, hw.2⟩
    · simp only [Memory.insertCell, if_neg hlt, Memory.wfFrom, Bool.and_eq_true, decide_eq_true_eq]
      exact ⟨hw.1, ih _ hw.2 (fun c hc => hf c (List.mem_cons_of_mem _ hc)) (by omega)⟩

/-- Storing a byte inside memory keeps the canonical form. -/
theorem write_wf (m : Memory) (a : Nat) (v : Byte) (hw : m.wf = true) (ha : a < Config.memSize) :
    (m.write a v).wf = true := by
  have he : (m.eraseCell a).wfFrom 0 = true := wfFrom_eraseCell m 0 a hw
  unfold Memory.write
  split
  · exact he
  · next h => exact wfFrom_insertCell _ 0 a v he (eraseCell_free m a) (Nat.zero_le a) ha h

/-- Storing bytes inside memory keeps the canonical form. -/
theorem writeBytes_wf (m : Memory) (a : Nat) (bs : List Byte) (hw : m.wf = true)
    (ha : a + bs.length ≤ Config.memSize) : (m.writeBytes a bs).wf = true := by
  induction bs generalizing m a with
  | nil => exact hw
  | cons v bs ih =>
    simp only [List.length_cons] at ha
    exact ih _ _ (write_wf m a v hw (by omega)) (by omega)

/-- Memory after reset is in the canonical form. -/
theorem reset_mem_wf : State.reset.mem.wf = true := rfl

/-- In the canonical form, the cells from `lo` up say nothing about an address below `lo`. -/
theorem read_below (m : Memory) (lo a : Nat) (hw : m.wfFrom lo = true) (ha : a < lo) :
    m.read a = resetByte a := by
  induction m generalizing lo with
  | nil => rfl
  | cons c m ih =>
    obtain ⟨k, u⟩ := c
    simp only [Memory.wfFrom, Bool.and_eq_true, decide_eq_true_eq] at hw
    rw [Memory.read, if_neg (by omega), ih _ hw.2 (by omega)]

/-- Equal memories are equal data: two canonical lists that read the same everywhere are the same list. -/
theorem canonical_ext (m m' : Memory) (lo : Nat) (hw : m.wfFrom lo = true) (hw' : m'.wfFrom lo = true)
    (h : ∀ a, m.read a = m'.read a) : m = m' := by
  induction m generalizing m' lo with
  | nil =>
    cases m' with
    | nil => rfl
    | cons c m' =>
      obtain ⟨k, u⟩ := c
      simp only [Memory.wfFrom, Bool.and_eq_true, decide_eq_true_eq, bne_iff_ne] at hw'
      exact absurd (by simpa [Memory.read] using (h k).symm) hw'.1.2
  | cons c m ih =>
    obtain ⟨k, u⟩ := c
    have hc := hw
    simp only [Memory.wfFrom, Bool.and_eq_true, decide_eq_true_eq, bne_iff_ne] at hc
    cases m' with
    | nil => exact absurd (by simpa [Memory.read] using h k) hc.1.2
    | cons c' m' =>
      obtain ⟨k', u'⟩ := c'
      have hc' := hw'
      simp only [Memory.wfFrom, Bool.and_eq_true, decide_eq_true_eq, bne_iff_ne] at hc'
      have hkk : k = k' := by
        rcases Nat.lt_trichotomy k k' with hlt | heq | hgt
        · have := h k
          rw [Memory.read, if_pos rfl, Memory.read, if_neg (by omega), read_below m' _ k hc'.2 (by omega)] at this
          exact absurd this hc.1.2
        · exact heq
        · have := h k'
          rw [Memory.read, if_neg (by omega), Memory.read, if_pos rfl, read_below m _ k' hc.2 (by omega)] at this
          exact absurd this.symm hc'.1.2
      subst hkk
      have huu : u = u' := by simpa [Memory.read] using h k
      subst huu
      have hm : m = m' := ih m' (k + 1) hc.2 hc'.2 (fun a => by
        by_cases ha : a < k + 1
        · rw [read_below m _ a hc.2 ha, read_below m' _ a hc'.2 ha]
        · have := h a
          rwa [Memory.read, if_neg (by omega), Memory.read, if_neg (by omega)] at this)
      rw [hm]

end Sys2Proof.Machine
end

