-- ==== Sys2Proof/Laws/State.lean ====
section
/-!
SUPPORT. The field lemmas of every state update: what each field is after it.
-/

namespace Sys2Proof.Machine

/-! ### setV -/

@[simp] theorem setV_mem (s : State) (x : Reg) (b : Byte) : (s.setV x b).mem = s.mem := rfl
@[simp] theorem setV_V (s : State) (x : Reg) (b : Byte) : (s.setV x b).V = s.V.set x b := rfl
@[simp] theorem setV_I (s : State) (x : Reg) (b : Byte) : (s.setV x b).I = s.I := rfl
@[simp] theorem setV_pc (s : State) (x : Reg) (b : Byte) : (s.setV x b).pc = s.pc := rfl
@[simp] theorem setV_S (s : State) (x : Reg) (b : Byte) : (s.setV x b).S = s.S := rfl
@[simp] theorem setV_SP (s : State) (x : Reg) (b : Byte) : (s.setV x b).SP = s.SP := rfl
@[simp] theorem setV_DT (s : State) (x : Reg) (b : Byte) : (s.setV x b).DT = s.DT := rfl
@[simp] theorem setV_ST (s : State) (x : Reg) (b : Byte) : (s.setV x b).ST = s.ST := rfl
@[simp] theorem setV_FB (s : State) (x : Reg) (b : Byte) : (s.setV x b).FB = s.FB := rfl
@[simp] theorem setV_KEY (s : State) (x : Reg) (b : Byte) : (s.setV x b).KEY = s.KEY := rfl
@[simp] theorem setV_STATUS (s : State) (x : Reg) (b : Byte) : (s.setV x b).STATUS = s.STATUS := rfl
@[simp] theorem setV_draws (s : State) (x : Reg) (b : Byte) : (s.setV x b).draws = s.draws := rfl

/-! ### advance -/

@[simp] theorem advance_mem (s : State) : (s.advance).mem = s.mem := rfl
@[simp] theorem advance_V (s : State) : (s.advance).V = s.V := rfl
@[simp] theorem advance_I (s : State) : (s.advance).I = s.I := rfl
@[simp] theorem advance_pc (s : State) : (s.advance).pc = s.pc + 2 := rfl
@[simp] theorem advance_S (s : State) : (s.advance).S = s.S := rfl
@[simp] theorem advance_SP (s : State) : (s.advance).SP = s.SP := rfl
@[simp] theorem advance_DT (s : State) : (s.advance).DT = s.DT := rfl
@[simp] theorem advance_ST (s : State) : (s.advance).ST = s.ST := rfl
@[simp] theorem advance_FB (s : State) : (s.advance).FB = s.FB := rfl
@[simp] theorem advance_KEY (s : State) : (s.advance).KEY = s.KEY := rfl
@[simp] theorem advance_STATUS (s : State) : (s.advance).STATUS = s.STATUS := rfl
@[simp] theorem advance_draws (s : State) : (s.advance).draws = s.draws := rfl

/-! ### skipIf -/

@[simp] theorem skipIf_mem (s : State) (c : Bool) : (s.skipIf c).mem = s.mem := rfl
@[simp] theorem skipIf_V (s : State) (c : Bool) : (s.skipIf c).V = s.V := rfl
@[simp] theorem skipIf_I (s : State) (c : Bool) : (s.skipIf c).I = s.I := rfl
@[simp] theorem skipIf_pc (s : State) (c : Bool) : (s.skipIf c).pc = if c then s.pc + 4 else s.pc + 2 := rfl
@[simp] theorem skipIf_S (s : State) (c : Bool) : (s.skipIf c).S = s.S := rfl
@[simp] theorem skipIf_SP (s : State) (c : Bool) : (s.skipIf c).SP = s.SP := rfl
@[simp] theorem skipIf_DT (s : State) (c : Bool) : (s.skipIf c).DT = s.DT := rfl
@[simp] theorem skipIf_ST (s : State) (c : Bool) : (s.skipIf c).ST = s.ST := rfl
@[simp] theorem skipIf_FB (s : State) (c : Bool) : (s.skipIf c).FB = s.FB := rfl
@[simp] theorem skipIf_KEY (s : State) (c : Bool) : (s.skipIf c).KEY = s.KEY := rfl
@[simp] theorem skipIf_STATUS (s : State) (c : Bool) : (s.skipIf c).STATUS = s.STATUS := rfl
@[simp] theorem skipIf_draws (s : State) (c : Bool) : (s.skipIf c).draws = s.draws := rfl

/-! ### transfer -/

@[simp] theorem transfer_mem (s : State) (a : Word) : (s.transfer a).mem = s.mem := rfl
@[simp] theorem transfer_V (s : State) (a : Word) : (s.transfer a).V = s.V := rfl
@[simp] theorem transfer_I (s : State) (a : Word) : (s.transfer a).I = s.I := rfl
@[simp] theorem transfer_pc (s : State) (a : Word) : (s.transfer a).pc = a := rfl
@[simp] theorem transfer_S (s : State) (a : Word) : (s.transfer a).S = s.S := rfl
@[simp] theorem transfer_SP (s : State) (a : Word) : (s.transfer a).SP = s.SP := rfl
@[simp] theorem transfer_DT (s : State) (a : Word) : (s.transfer a).DT = s.DT := rfl
@[simp] theorem transfer_ST (s : State) (a : Word) : (s.transfer a).ST = s.ST := rfl
@[simp] theorem transfer_FB (s : State) (a : Word) : (s.transfer a).FB = s.FB := rfl
@[simp] theorem transfer_KEY (s : State) (a : Word) : (s.transfer a).KEY = s.KEY := rfl
@[simp] theorem transfer_STATUS (s : State) (a : Word) : (s.transfer a).STATUS = s.STATUS := rfl
@[simp] theorem transfer_draws (s : State) (a : Word) : (s.transfer a).draws = s.draws := rfl

/-! ### tick -/

@[simp] theorem tick_mem (s : State) : (s.tick).mem = s.mem := rfl
@[simp] theorem tick_V (s : State) : (s.tick).V = s.V := rfl
@[simp] theorem tick_I (s : State) : (s.tick).I = s.I := rfl
@[simp] theorem tick_pc (s : State) : (s.tick).pc = s.pc := rfl
@[simp] theorem tick_S (s : State) : (s.tick).S = s.S := rfl
@[simp] theorem tick_SP (s : State) : (s.tick).SP = s.SP := rfl
@[simp] theorem tick_DT (s : State) : (s.tick).DT = countDown s.DT := rfl
@[simp] theorem tick_ST (s : State) : (s.tick).ST = countDown s.ST := rfl
@[simp] theorem tick_FB (s : State) : (s.tick).FB = s.FB := rfl
@[simp] theorem tick_KEY (s : State) : (s.tick).KEY = s.KEY := rfl
@[simp] theorem tick_STATUS (s : State) : (s.tick).STATUS = s.STATUS := rfl
@[simp] theorem tick_draws (s : State) : (s.tick).draws = s.draws := rfl

/-! ### drawn -/

@[simp] theorem drawn_mem (s : State) : (s.drawn).mem = s.mem := rfl
@[simp] theorem drawn_V (s : State) : (s.drawn).V = s.V := rfl
@[simp] theorem drawn_I (s : State) : (s.drawn).I = s.I := rfl
@[simp] theorem drawn_pc (s : State) : (s.drawn).pc = s.pc := rfl
@[simp] theorem drawn_S (s : State) : (s.drawn).S = s.S := rfl
@[simp] theorem drawn_SP (s : State) : (s.drawn).SP = s.SP := rfl
@[simp] theorem drawn_DT (s : State) : (s.drawn).DT = s.DT := rfl
@[simp] theorem drawn_ST (s : State) : (s.drawn).ST = s.ST := rfl
@[simp] theorem drawn_FB (s : State) : (s.drawn).FB = s.FB := rfl
@[simp] theorem drawn_KEY (s : State) : (s.drawn).KEY = s.KEY := rfl
@[simp] theorem drawn_STATUS (s : State) : (s.drawn).STATUS = s.STATUS := rfl
@[simp] theorem drawn_draws (s : State) : (s.drawn).draws = s.draws + 1 := rfl

/-! ### keyWrite -/

@[simp] theorem keyWrite_mem (s : State) (k : Key) (b : Bool) : (s.keyWrite k b).mem = s.mem := rfl
@[simp] theorem keyWrite_V (s : State) (k : Key) (b : Bool) : (s.keyWrite k b).V = s.V := rfl
@[simp] theorem keyWrite_I (s : State) (k : Key) (b : Bool) : (s.keyWrite k b).I = s.I := rfl
@[simp] theorem keyWrite_pc (s : State) (k : Key) (b : Bool) : (s.keyWrite k b).pc = s.pc := rfl
@[simp] theorem keyWrite_S (s : State) (k : Key) (b : Bool) : (s.keyWrite k b).S = s.S := rfl
@[simp] theorem keyWrite_SP (s : State) (k : Key) (b : Bool) : (s.keyWrite k b).SP = s.SP := rfl
@[simp] theorem keyWrite_DT (s : State) (k : Key) (b : Bool) : (s.keyWrite k b).DT = s.DT := rfl
@[simp] theorem keyWrite_ST (s : State) (k : Key) (b : Bool) : (s.keyWrite k b).ST = s.ST := rfl
@[simp] theorem keyWrite_FB (s : State) (k : Key) (b : Bool) : (s.keyWrite k b).FB = s.FB := rfl
@[simp] theorem keyWrite_KEY (s : State) (k : Key) (b : Bool) : (s.keyWrite k b).KEY = s.KEY.set k b := rfl
@[simp] theorem keyWrite_STATUS (s : State) (k : Key) (b : Bool) : (s.keyWrite k b).STATUS = s.STATUS := rfl
@[simp] theorem keyWrite_draws (s : State) (k : Key) (b : Bool) : (s.keyWrite k b).draws = s.draws := rfl

/-! ### resetPort -/

@[simp] theorem resetPort_mem (s : State) : (s.resetPort).mem = State.reset.mem := rfl
@[simp] theorem resetPort_V (s : State) : (s.resetPort).V = State.reset.V := rfl
@[simp] theorem resetPort_I (s : State) : (s.resetPort).I = State.reset.I := rfl
@[simp] theorem resetPort_pc (s : State) : (s.resetPort).pc = State.reset.pc := rfl
@[simp] theorem resetPort_S (s : State) : (s.resetPort).S = State.reset.S := rfl
@[simp] theorem resetPort_SP (s : State) : (s.resetPort).SP = State.reset.SP := rfl
@[simp] theorem resetPort_DT (s : State) : (s.resetPort).DT = State.reset.DT := rfl
@[simp] theorem resetPort_ST (s : State) : (s.resetPort).ST = State.reset.ST := rfl
@[simp] theorem resetPort_FB (s : State) : (s.resetPort).FB = State.reset.FB := rfl
@[simp] theorem resetPort_KEY (s : State) : (s.resetPort).KEY = State.reset.KEY := rfl
@[simp] theorem resetPort_STATUS (s : State) : (s.resetPort).STATUS = State.reset.STATUS := rfl
@[simp] theorem resetPort_draws (s : State) : (s.resetPort).draws = s.draws := rfl

/-! ### One register after an update -/

/-- A register after `V[x] <- b`. -/
theorem setV_get (s : State) (x : Reg) (b : Byte) (r : Reg) :
    (s.setV x b).V[r] = if r = x then b else s.V[r] := by
  by_cases h : r = x
  · subst h; simp
  · have : x.val ≠ r.val := fun e => h (Fin.ext e.symm)
    simp [h, this]

theorem setV_get_same (s : State) (x : Reg) (b : Byte) : (s.setV x b).V[x] = b := by
  simp

theorem setV_get_other (s : State) {x r : Reg} (b : Byte) (h : r ≠ x) : (s.setV x b).V[r] = s.V[r] := by
  rw [setV_get, if_neg h]

/-- After a result and a flag, VF holds the flag, whatever x is (40_step_cycle.md R105). -/
theorem setResultAndFlag_VF (s : State) (x : Reg) (b f : Byte) : (s.setResultAndFlag x b f).V[VF] = f := by
  rw [State.setResultAndFlag, setV_get, if_pos rfl]

/-- After a result and a flag, V[x] holds the result unless x = F. -/
theorem setResultAndFlag_result (s : State) {x : Reg} (b f : Byte) (h : x ≠ VF) :
    (s.setResultAndFlag x b f).V[x] = b := by
  rw [State.setResultAndFlag, setV_get, if_neg h, setV_get, if_pos rfl]

/-- After a result and a flag, every other register is as before. -/
theorem setResultAndFlag_other (s : State) {x r : Reg} (b f : Byte) (hx : r ≠ x) (hf : r ≠ VF) :
    (s.setResultAndFlag x b f).V[r] = s.V[r] := by
  rw [State.setResultAndFlag, setV_get, if_neg hf, setV_get, if_neg hx]

/-- A key after key_write. -/
theorem keyWrite_get (s : State) (k : Key) (b : Bool) (j : Key) :
    (s.keyWrite k b).KEY[j] = if j = k then b else s.KEY[j] := by
  by_cases h : j = k
  · subst h; simp
  · have : k.val ≠ j.val := fun e => h (Fin.ext e.symm)
    simp [h, this]

@[simp] theorem setResultAndFlag_mem (s : State) (x : Reg) (b f : Byte) : (s.setResultAndFlag x b f).mem = s.mem := rfl
@[simp] theorem setResultAndFlag_I (s : State) (x : Reg) (b f : Byte) : (s.setResultAndFlag x b f).I = s.I := rfl
@[simp] theorem setResultAndFlag_pc (s : State) (x : Reg) (b f : Byte) : (s.setResultAndFlag x b f).pc = s.pc := rfl
@[simp] theorem setResultAndFlag_S (s : State) (x : Reg) (b f : Byte) : (s.setResultAndFlag x b f).S = s.S := rfl
@[simp] theorem setResultAndFlag_SP (s : State) (x : Reg) (b f : Byte) : (s.setResultAndFlag x b f).SP = s.SP := rfl
@[simp] theorem setResultAndFlag_DT (s : State) (x : Reg) (b f : Byte) : (s.setResultAndFlag x b f).DT = s.DT := rfl
@[simp] theorem setResultAndFlag_ST (s : State) (x : Reg) (b f : Byte) : (s.setResultAndFlag x b f).ST = s.ST := rfl
@[simp] theorem setResultAndFlag_FB (s : State) (x : Reg) (b f : Byte) : (s.setResultAndFlag x b f).FB = s.FB := rfl
@[simp] theorem setResultAndFlag_KEY (s : State) (x : Reg) (b f : Byte) : (s.setResultAndFlag x b f).KEY = s.KEY := rfl
@[simp] theorem setResultAndFlag_STATUS (s : State) (x : Reg) (b f : Byte) : (s.setResultAndFlag x b f).STATUS = s.STATUS := rfl
@[simp] theorem setResultAndFlag_draws (s : State) (x : Reg) (b f : Byte) : (s.setResultAndFlag x b f).draws = s.draws := rfl

end Sys2Proof.Machine
end

