-- ==== Sys2Proof/Laws/Ops.lean ====
section
/-!
SUPPORT. One lemma per shared operation that says everything it can do.
-/

namespace Sys2Proof.Machine

/-! ### Range check and faults -/

theorem inRange_iff (base : Word) (ext : Nat) : inRange base ext = true ↔ base.toNat + ext ≤ 4096 := by
  simp [inRange]

/-- A checked access that is in range goes on; one that is not takes MemoryOutOfRange. -/
theorem checkRange_ok {base : Word} {ext : Nat} (s : State) (k : Result) (h : base.toNat + ext ≤ 4096) :
    checkRange base ext s k = k := by
  rw [checkRange, if_pos ((inRange_iff _ _).2 h)]

theorem checkRange_fault {base : Word} {ext : Nat} (s : State) (k : Result) (h : 4096 < base.toNat + ext) :
    checkRange base ext s k = .next { s with STATUS := .fault .memoryOutOfRange } := by
  rw [checkRange, if_neg (by rw [inRange_iff]; omega)]; rfl

/-- Everything a checked access can do, when it answers a next state. -/
theorem checkRange_next {base : Word} {ext : Nat} {s t : State} {k : Result}
    (h : checkRange base ext s k = .next t) :
    (base.toNat + ext ≤ 4096 ∧ k = .next t) ∨
    (4096 < base.toNat + ext ∧ t = { s with STATUS := .fault .memoryOutOfRange }) := by
  by_cases hr : base.toNat + ext ≤ 4096
  · rw [checkRange_ok s k hr] at h; exact .inl ⟨hr, h⟩
  · rw [checkRange_fault s k (by omega)] at h
    injection h with h
    exact .inr ⟨by omega, h.symm⟩

/-! ### The stack -/

theorem push_full {s : State} (a : Word) (h : s.SP.val = 16) : s.push a = none := by
  rw [State.push, dif_neg (by omega)]

/-- A push that succeeds: the slot S[SP] and SP change, nothing else. -/
theorem push_some {s t : State} {a : Word} (h : s.push a = some t) :
    ∃ hlt : s.SP.val < 16, t = { s with S := s.S.set s.SP.val a hlt, SP := ⟨s.SP.val + 1, by omega⟩ } := by
  unfold State.push at h
  split at h
  · next hlt => exact ⟨hlt, by simpa using h.symm⟩
  · cases h

theorem push_room {s : State} (a : Word) (h : s.SP.val < 16) :
    s.push a = some { s with S := s.S.set s.SP.val a h, SP := ⟨s.SP.val + 1, by omega⟩ } := by
  rw [State.push, dif_pos h]

theorem pop_empty {s : State} (h : s.SP.val = 0) : s.pop = none := by rw [State.pop, dif_pos h]

/-- A pop that succeeds: SP changes, and no slot does. -/
theorem pop_some {s t : State} {a : Word} (h : s.pop = some (a, t)) :
    s.SP.val ≠ 0 ∧ ∃ hlt : s.SP.val - 1 < 16,
      a = s.S[s.SP.val - 1] ∧ t = { s with SP := ⟨s.SP.val - 1, by omega⟩ } := by
  unfold State.pop at h
  split at h
  · cases h
  · next hne =>
    have hlt : s.SP.val - 1 < 16 := by have := s.SP.isLt; omega
    simp only [Option.some.injEq, Prod.mk.injEq] at h
    exact ⟨hne, hlt, h.1.symm, h.2.symm⟩

theorem pop_held {s : State} (h : s.SP.val ≠ 0) (hlt : s.SP.val - 1 < 16) :
    s.pop = some (s.S[s.SP.val - 1], { s with SP := ⟨s.SP.val - 1, by omega⟩ }) := by
  rw [State.pop, dif_neg h]

/-! ### Keys -/

theorem keyOfValue_some {v : Byte} {k : Key} (h : keyOfValue v = some k) : v.toNat = k.val := by
  unfold keyOfValue at h
  split at h
  · injection h with h; rw [← h]
  · cases h

theorem keyOfValue_of_le {v : Byte} (h : v.toNat ≤ 15) : keyOfValue v = some ⟨v.toNat, by omega⟩ := by
  rw [keyOfValue, dif_pos (by omega)]

theorem keyOfValue_none {v : Byte} (h : 15 < v.toNat) : keyOfValue v = none := by
  rw [keyOfValue, dif_neg (by omega)]

/-- Everything a key-conditioned skip can do. -/
theorem skipOnKey_next {p : Bool} {x : Reg} {s t : State} (h : skipOnKey p x s = .next t) :
    (∃ k : Key, s.V[x].toNat = k.val ∧ t = s.skipIf (s.KEY[k] == p)) ∨
    (15 < s.V[x].toNat ∧ t = { s with STATUS := .fault .keyIndexOutOfRange }) := by
  by_cases hv : s.V[x].toNat ≤ 15
  · refine .inl ⟨⟨s.V[x].toNat, by omega⟩, rfl, ?_⟩
    rw [skipOnKey, State.reg, keyOfValue_of_le hv] at h
    injection h with h; exact h.symm
  · refine .inr ⟨by omega, ?_⟩
    rw [skipOnKey, State.reg, keyOfValue_none (by omega)] at h
    injection h with h; exact h.symm

/-- The lowest pressed key is pressed, and no lower one is. -/
theorem lowestPressed_some {keys : Vector Bool 16} {k : Key} (h : lowestPressed keys = some k) :
    keys[k] = true ∧ ∀ j : Key, j < k → keys[j] = false := by
  rw [lowestPressed, List.find?_eq_some_iff_getElem] at h
  obtain ⟨hk, i, hi, hik, hlow⟩ := h
  refine ⟨hk, fun j hj => ?_⟩
  simp only [List.getElem_finRange] at hik
  have hji : j.val < i := by
    have : k.val = i := by rw [← hik]; rfl
    have : j.val < k.val := hj
    omega
  have := hlow j.val hji
  simpa using this

theorem lowestPressed_none {keys : Vector Bool 16} (h : lowestPressed keys = none) (k : Key) :
    keys[k] = false := by
  rw [lowestPressed, List.find?_eq_none] at h
  simpa using h k (List.mem_finRange k)

/-! ### The block V0..V[x] -/

theorem block_length (s : State) (x : Reg) : (s.block x).length = x.val + 1 := by
  simp [State.block, blockExtent]

theorem block_get (s : State) (x : Reg) (j : Nat) (h : j < (s.block x).length) (h' : j < 16) :
    (s.block x)[j] = s.V[j] := by
  simp [State.block]

/-- Loading a block writes registers only. -/
theorem setBlockFrom_eq (s : State) (j : Nat) (bs : List Byte) :
    s.setBlockFrom j bs = { s with V := (s.setBlockFrom j bs).V } := by
  induction bs generalizing s j with
  | nil => rfl
  | cons b bs ih =>
    simp only [State.setBlockFrom]
    rw [ih]
    split <;> rfl

/-- A register after loading a block: the loaded byte where the block reaches it, else as before. -/
theorem setBlockFrom_get (s : State) (j : Nat) (bs : List Byte) (hj : j + bs.length ≤ 16) (r : Reg) :
    (s.setBlockFrom j bs).V[r] =
      if h : j ≤ r.val ∧ r.val < j + bs.length then bs[r.val - j]'(by omega) else s.V[r] := by
  induction bs generalizing s j with
  | nil => rw [dif_neg (by simp only [List.length_nil]; omega)]; rfl
  | cons b bs ih =>
    simp only [List.length_cons] at hj
    have hj16 : j < 16 := by omega
    simp only [State.setBlockFrom, dif_pos hj16]
    rw [ih _ _ (by omega)]
    by_cases h1 : j + 1 ≤ r.val ∧ r.val < j + 1 + bs.length
    · rw [dif_pos h1, dif_pos (by simp only [List.length_cons]; omega)]
      have : r.val - j = (r.val - (j + 1)) + 1 := by omega
      simp [this]
    · rw [dif_neg h1, setV_get]
      by_cases h2 : r.val = j
      · have hr : r = ⟨j, hj16⟩ := Fin.ext h2
        rw [if_pos hr, dif_pos (by simp only [List.length_cons]; omega)]
        simp [h2]
      · rw [if_neg (fun e => h2 (congrArg Fin.val e)), dif_neg (by simp only [List.length_cons]; omega)]

/-! ### Digits, flags, timers -/

theorem decimalDigits_length (v : Byte) : (decimalDigits v).length = 3 := rfl

theorem countDown_toNat (t : Byte) : (countDown t).toNat = t.toNat - 1 := by
  unfold countDown
  split
  · next h => subst h; rfl
  · next h =>
    have : t.toNat ≠ 0 := fun e => h (BitVec.eq_of_toNat_eq (by simpa using e))
    have := t.isLt
    rw [BitVec.toNat_sub]
    change (2 ^ 8 - 1 + t.toNat) % 2 ^ 8 = t.toNat - 1
    omega

/-! ### Shared effects -/

/-- A store at I writes the bytes, or faults with nothing written. -/
theorem storeAtIndex_next {bs : List Byte} {s t : State} (h : storeAtIndex bs s = .next t) :
    (s.I.toNat + bs.length ≤ 4096 ∧
      t = { s with mem := s.mem.writeBytes s.I.toNat bs, pc := s.pc + 2 }) ∨
    (4096 < s.I.toNat + bs.length ∧ t = { s with STATUS := .fault .memoryOutOfRange }) := by
  rcases checkRange_next h with ⟨hr, hk⟩ | hf
  · injection hk with hk; exact .inl ⟨hr, hk.symm⟩
  · exact .inr hf

/-! ### The step -/

/-- A step from a running state, by what fetch and decode give. -/
theorem step_running {s : State} (h : s.STATUS = .run) :
    step s = match fetchInstr s with
      | .error f => takeFault f s
      | .ok i => completeStep (exec i s) := by
  cases s; cases h; rfl

theorem fetchWord_inRange {s : State} (h : s.pc.toNat + 2 ≤ 4096) :
    fetchWord s = some (wordOfBytes (s.mem.read s.pc.toNat) (s.mem.read (s.pc.toNat + 1))) := by
  rw [fetchWord, if_pos ((inRange_iff _ _).2 h)]

theorem fetchWord_outside {s : State} (h : 4096 < s.pc.toNat + 2) : fetchWord s = none := by
  rw [fetchWord, if_neg (by rw [inRange_iff]; simp only [Config.insnBytes]; omega)]

/-- Big-endian: the first byte is bits 15:8. -/
theorem wordOfBytes_toNat (hi lo : Byte) : (wordOfBytes hi lo).toNat = hi.toNat * 256 + lo.toNat := by
  have h := lo.isLt
  rw [wordOfBytes, BitVec.toNat_append, ← Nat.shiftLeft_add_eq_or_of_lt h, Nat.shiftLeft_eq]

/-- The bytes of a word make the word again. -/
theorem wordOfBytes_bytes (w : Word) : wordOfBytes (highByte w) (lowByte w) = w := by
  apply BitVec.eq_of_toNat_eq
  rw [wordOfBytes_toNat]
  simp only [highByte, lowByte, BitVec.extractLsb'_toNat, Nat.shiftRight_eq_div_pow]
  have := w.isLt
  omega

end Sys2Proof.Machine
end

