-- ==== Sys2Proof/Laws/Display.lean ====
section
/-!
SUPPORT. What drawing a sprite does, pixel by pixel (44_display.md R191, R193): the offsets of a pixel from the
draw position, and for a bit, a row and a whole sprite the pixels toggled and the collision.
-/

namespace Sys2Proof.Machine

/-! ### Pixels -/

theorem allOff_get (r : Fin 32) (c : Fin 64) : Framebuffer.allOff.get r c = false := by
  simp [Framebuffer.get, Framebuffer.allOff]

theorem put_get (fb : Framebuffer) (r : Fin 32) (c : Fin 64) (b : Bool) (r' : Fin 32) (c' : Fin 64) :
    (fb.put r c b).get r' c' = if r' = r ∧ c' = c then b else fb.get r' c' := by
  by_cases hr : r' = r
  · subst hr
    by_cases hc : c' = c
    · subst hc; simp [Framebuffer.get, Framebuffer.put]
    · have : c.val ≠ c'.val := fun e => hc (Fin.ext e.symm)
      simp [Framebuffer.get, Framebuffer.put, hc, this]
  · have : r.val ≠ r'.val := fun e => hr (Fin.ext e.symm)
    simp [Framebuffer.get, Framebuffer.put, hr, this]

/-- Two framebuffers with the same pixels are the same. -/
theorem framebuffer_ext {fb fb' : Framebuffer} (h : ∀ r c, fb.get r c = fb'.get r c) : fb = fb' := by
  apply Vector.ext
  intro i hi
  apply Vector.ext
  intro j hj
  exact h ⟨i, hi⟩ ⟨j, hj⟩

/-! ### Offsets from the draw position -/

/-- How many rows below Y the row r is, counted round the screen. -/
def rowOffset (Y : Byte) (r : Fin 32) : Nat := (r.val + (32 - Y.toNat % 32)) % 32

/-- How many columns right of X the column c is, counted round the screen. -/
def columnOffset (X : Byte) (c : Fin 64) : Nat := (c.val + (64 - X.toNat % 64)) % 64

theorem pixelRow_eq_iff (Y : Byte) {j : Nat} (hj : j < 32) (r : Fin 32) :
    r = pixelRow Y j ↔ rowOffset Y r = j := by
  rw [Fin.ext_iff]
  simp only [pixelRow, Fin.val_ofNat, rowOffset]
  have := r.isLt
  omega

theorem pixelColumn_eq_iff (X : Byte) {i : Nat} (hi : i < 64) (c : Fin 64) :
    c = pixelColumn X i ↔ columnOffset X c = i := by
  rw [Fin.ext_iff]
  simp only [pixelColumn, Fin.val_ofNat, columnOffset]
  have := c.isLt
  omega

theorem columnOffset_pixelColumn (X : Byte) {i : Nat} (hi : i < 64) : columnOffset X (pixelColumn X i) = i :=
  (pixelColumn_eq_iff X hi _).1 rfl

theorem rowOffset_pixelRow (Y : Byte) {j : Nat} (hj : j < 32) : rowOffset Y (pixelRow Y j) = j :=
  (pixelRow_eq_iff Y hj _).1 rfl

/-! ### One bit, one row, a sprite -/

theorem drawBit_get (X Y row : Byte) (j : Nat) (d : Draw) (i : Nat) (r : Fin 32) (c : Fin 64) :
    (drawBit X Y row j d i).fb.get r c =
      (d.fb.get r c ^^ (spriteBit row i && decide (r = pixelRow Y j) && decide (c = pixelColumn X i))) := by
  unfold drawBit
  split
  · next h =>
    simp only [put_get, h, Bool.true_and]
    by_cases hr : r = pixelRow Y j <;> by_cases hc : c = pixelColumn X i <;> simp [hr, hc]
  · next h => simp [h]

theorem drawBit_hit (X Y row : Byte) (j : Nat) (d : Draw) (i : Nat) :
    (drawBit X Y row j d i).hit = (d.hit || (spriteBit row i && d.fb.get (pixelRow Y j) (pixelColumn X i))) := by
  unfold drawBit
  split <;> simp_all

/-- After the first n bits of a row, exactly the set bits' pixels are toggled. -/
theorem drawBits_get (X Y row : Byte) (j : Nat) (d : Draw) (n : Nat) (hn : n ≤ 64) (r : Fin 32) (c : Fin 64) :
    ((List.range n).foldl (drawBit X Y row j) d).fb.get r c =
      (d.fb.get r c ^^
        (decide (r = pixelRow Y j) && decide (columnOffset X c < n) && spriteBit row (columnOffset X c))) := by
  induction n with
  | zero => simp
  | succ n ih =>
    rw [List.range_succ, List.foldl_append, List.foldl_cons, List.foldl_nil, drawBit_get, ih (by omega),
      Bool.xor_assoc]
    congr 1
    have hc := pixelColumn_eq_iff X (i := n) (by omega) c
    by_cases hr : r = pixelRow Y j
    · by_cases hcn : columnOffset X c = n
      · simp [hr, hc.2 hcn, columnOffset_pixelColumn X (i := n) (by omega)]
      · have hne : c ≠ pixelColumn X n := fun e => hcn (hc.1 e)
        have : (columnOffset X c < n + 1) ↔ columnOffset X c < n := by omega
        simp [hr, hne, this]
    · simp [hr]

/-- The first n bits of a row collide exactly when a set bit's pixel was on before the row. -/
theorem drawBits_hit (X Y row : Byte) (j : Nat) (d : Draw) (n : Nat) (hn : n ≤ 64) :
    ((List.range n).foldl (drawBit X Y row j) d).hit = true ↔
      d.hit = true ∨ ∃ i, i < n ∧ spriteBit row i = true ∧ d.fb.get (pixelRow Y j) (pixelColumn X i) = true := by
  induction n with
  | zero => simp
  | succ n ih =>
    rw [List.range_succ, List.foldl_append, List.foldl_cons, List.foldl_nil, drawBit_hit, Bool.or_eq_true,
      ih (by omega), drawBits_get _ _ _ _ _ n (by omega), columnOffset_pixelColumn X (i := n) (by omega)]
    simp only [Bool.and_eq_true, lt_irrefl, decide_false, Bool.and_false, Bool.false_and, Bool.xor_false]
    constructor
    · rintro ((h | ⟨i, hi, hs⟩) | hs)
      · exact .inl h
      · exact .inr ⟨i, by omega, hs⟩
      · exact .inr ⟨n, by omega, hs⟩
    · rintro (h | ⟨i, hi, hs⟩)
      · exact .inl (.inl h)
      · by_cases hin : i = n
        · subst hin; exact .inr hs
        · exact .inl (.inr ⟨i, by omega, hs⟩)

/-- Whether the sprite with these rows, the first at row offset j, has a set bit on the pixel (r, c). -/
def spriteCovers (X Y : Byte) (j : Nat) (rows : List Byte) (r : Fin 32) (c : Fin 64) : Bool :=
  decide (j ≤ rowOffset Y r) && decide (columnOffset X c < 8) &&
    spriteBit (rows.getD (rowOffset Y r - j) 0) (columnOffset X c)

theorem spriteBit_zero (i : Nat) : spriteBit 0#8 i = false := by simp [spriteBit]

/-- Drawing a sprite toggles exactly the pixels its set bits cover. -/
theorem drawRows_get (X Y : Byte) (j : Nat) (rows : List Byte) (d : Draw) (hj : j + rows.length ≤ 32)
    (r : Fin 32) (c : Fin 64) :
    (drawRows X Y j rows d).fb.get r c = (d.fb.get r c ^^ spriteCovers X Y j rows r c) := by
  induction rows generalizing j d with
  | nil => simp [drawRows, spriteCovers, spriteBit_zero]
  | cons row rows ih =>
    simp only [List.length_cons] at hj
    rw [drawRows, ih _ _ (by omega), drawRow, drawBits_get _ _ _ _ _ 8 (by omega), Bool.xor_assoc]
    congr 1
    have hr := pixelRow_eq_iff Y (j := j) (by omega) r
    unfold spriteCovers
    by_cases h : rowOffset Y r = j
    · have : ¬ (j + 1 ≤ j) := by omega
      simp [hr.2 h, rowOffset_pixelRow Y (j := j) (by omega)]
    · have hne : r ≠ pixelRow Y j := fun e => h (hr.1 e)
      by_cases hle : j + 1 ≤ rowOffset Y r
      · have hle' : j ≤ rowOffset Y r := by omega
        have : rowOffset Y r - j = (rowOffset Y r - (j + 1)) + 1 := by omega
        simp [hne, hle, hle', this]
      · have hle' : ¬ j ≤ rowOffset Y r := by omega
        simp [hne, hle, hle']

/-- Drawing a sprite collides exactly when a set bit's pixel was on before the draw: the sprite's pixels are
pairwise distinct, so the order of the bits does not matter (44_display.md R193). -/
theorem drawRows_hit (X Y : Byte) (j : Nat) (rows : List Byte) (d : Draw) (hj : j + rows.length ≤ 32) :
    (drawRows X Y j rows d).hit = true ↔
      d.hit = true ∨ ∃ (k i : Nat) (_ : k < rows.length), i < 8 ∧ spriteBit rows[k] i = true ∧
        d.fb.get (pixelRow Y (j + k)) (pixelColumn X i) = true := by
  induction rows generalizing j d with
  | nil => simp [drawRows]
  | cons row rows ih =>
    simp only [List.length_cons] at hj
    rw [drawRows, ih _ _ (by omega), drawRow, drawBits_hit _ _ _ _ _ 8 (by omega)]
    have hget : ∀ k i, k < rows.length → ((List.range 8).foldl (drawBit X Y row j) d).fb.get
        (pixelRow Y (j + 1 + k)) (pixelColumn X i) = d.fb.get (pixelRow Y (j + 1 + k)) (pixelColumn X i) := by
      intro k i hk
      have hne : pixelRow Y (j + 1 + k) ≠ pixelRow Y j := fun e => by
        have := (pixelRow_eq_iff Y (j := j) (by omega) _).1 e
        rw [rowOffset_pixelRow Y (by omega)] at this
        omega
      rw [drawBits_get _ _ _ _ _ 8 (by omega)]
      simp [hne]
    constructor
    · rintro ((h | ⟨i, hi, hs, hp⟩) | ⟨k, i, hk, hi, hs, hp⟩)
      · exact .inl h
      · exact .inr ⟨0, i, by simp, hi, hs, hp⟩
      · rw [hget k i hk] at hp
        refine .inr ⟨k + 1, i, by simpa using hk, hi, by simpa using hs, ?_⟩
        rwa [show j + (k + 1) = j + 1 + k by omega]
    · rintro (h | ⟨k, i, hk, hi, hs, hp⟩)
      · exact .inl (.inl h)
      · cases k with
        | zero => exact .inl (.inr ⟨i, hi, hs, hp⟩)
        | succ k =>
          have hk' : k < rows.length := by simpa using hk
          refine .inr ⟨k, i, hk', hi, by simpa using hs, ?_⟩
          rw [hget k i hk']
          rwa [show j + 1 + k = j + (k + 1) by omega]

end Sys2Proof.Machine
end

