-- ==== Sys2Proof/Laws/Exec.lean ====
section
/-!
SUPPORT. Each meaning that has more than one outcome, as one equation per outcome: what exec answers when the
instruction completes, and when it takes its fault.
-/

namespace Sys2Proof.Machine


theorem execRet_empty {s : State} (h : s.SP.val = 0) :
    execRet s = .next { s with STATUS := .fault .stackUnderflow } := by
  rw [execRet, pop_empty h]; rfl

theorem execRet_held {s : State} (h : s.SP.val ≠ 0) (hlt : s.SP.val - 1 < 16) :
    execRet s = .next { s with SP := ⟨s.SP.val - 1, by omega⟩, pc := s.S[s.SP.val - 1] } := by
  rw [execRet, pop_held h hlt]; rfl

theorem execCall_full {s : State} (nnn : Imm12) (h : s.SP.val = 16) :
    execCall nnn s = .next { s with STATUS := .fault .stackOverflow } := by
  rw [execCall, push_full _ h]; rfl

theorem execCall_room {s : State} (nnn : Imm12) (h : s.SP.val < 16) :
    execCall nnn s = .next { s with
      S := s.S.set s.SP.val (s.pc + 2) h, SP := ⟨s.SP.val + 1, by omega⟩, pc := zext16 nnn } := by
  rw [execCall, push_room _ h]; rfl

theorem storeAtIndex_ok {s : State} {bs : List Byte} (h : s.I.toNat + bs.length ≤ 4096) :
    storeAtIndex bs s = .next { s with mem := s.mem.writeBytes s.I.toNat bs, pc := s.pc + 2 } := by
  rw [storeAtIndex, checkRange_ok _ _ h]; rfl

theorem storeAtIndex_fault {s : State} {bs : List Byte} (h : 4096 < s.I.toNat + bs.length) :
    storeAtIndex bs s = .next { s with STATUS := .fault .memoryOutOfRange } := by
  rw [storeAtIndex, checkRange_fault _ _ h]

theorem execLdVMem_ok {s : State} {x : Reg} (h : s.I.toNat + (x.val + 1) ≤ 4096) :
    execLdVMem x s = .next { s with
      V := (s.setBlockFrom 0 (s.mem.readBytes s.I.toNat (x.val + 1))).V, pc := s.pc + 2 } := by
  rw [execLdVMem, blockExtent, checkRange_ok _ _ h, setBlockFrom_eq]; rfl

theorem execLdVMem_fault {s : State} {x : Reg} (h : 4096 < s.I.toNat + (x.val + 1)) :
    execLdVMem x s = .next { s with STATUS := .fault .memoryOutOfRange } := by
  rw [execLdVMem, blockExtent, checkRange_fault _ _ h]

theorem setBlockFrom_V {s t : State} (h : s.V = t.V) (j : Nat) (bs : List Byte) :
    (s.setBlockFrom j bs).V = (t.setBlockFrom j bs).V := by
  induction bs generalizing s t j with
  | nil => exact h
  | cons b bs ih =>
    simp only [State.setBlockFrom]
    split
    · exact ih (by simp [h]) _
    · exact ih h _

theorem execDrw_fault {s : State} {x y : Reg} {n : Rows} (h : 4096 < s.I.toNat + n.val) :
    execDrw x y n s = .next { s with STATUS := .fault .memoryOutOfRange } := by
  rw [execDrw, checkRange_fault _ _ h]

/-- The draw of Dxyn, from the state at the start of execute. -/
def drawnAt (x y : Reg) (n : Rows) (s : State) : Draw :=
  drawRows (s.reg x) (s.reg y) 0 (s.mem.readBytes s.I.toNat n.val) ⟨s.FB, false⟩

theorem execDrw_ok {s : State} {x y : Reg} {n : Rows} (h : s.I.toNat + n.val ≤ 4096) :
    execDrw x y n s = .next { s with
      FB := (drawnAt x y n s).fb
      V := s.V.set VF (flagByte (drawnAt x y n s).hit), pc := s.pc + 2 } := by
  rw [execDrw, checkRange_ok _ _ h]; rfl

theorem execLdVKey_some {s : State} {k : Key} (x : Reg) (h : lowestPressed s.KEY = some k) :
    execLdVKey x s = .next { s with V := s.V.set x (BitVec.ofNat 8 k.val), pc := s.pc + 2 } := by
  rw [execLdVKey, h]; rfl

theorem execLdVKey_none {s : State} (x : Reg) (h : lowestPressed s.KEY = none) :
    execLdVKey x s = .next s := by
  rw [execLdVKey, h]

theorem skipOnKey_ok {s : State} {p : Bool} {x : Reg} {k : Key} (h : s.V[x].toNat = k.val) :
    skipOnKey p x s = .next { s with pc := if s.KEY[k] == p then s.pc + 4 else s.pc + 2 } := by
  have hk : (⟨s.V[x].toNat, by omega⟩ : Key) = k := Fin.ext h
  rw [skipOnKey, State.reg, keyOfValue_of_le (by omega), hk]; rfl

theorem skipOnKey_fault {s : State} {p : Bool} {x : Reg} (h : 15 < s.V[x].toNat) :
    skipOnKey p x s = .next { s with STATUS := .fault .keyIndexOutOfRange } := by
  rw [skipOnKey, State.reg, keyOfValue_none h]; rfl

end Sys2Proof.Machine
end

