-- ==== Sys2Proof/Laws/PerInstr.lean ====
section
/-!
SUPPORT. Facts stated once per instruction. Family RowOfWord: the word the encoder makes is on the
instruction's own row of the opcode map, the row with its mnemonic (30_encoding.md R74).
-/

namespace Sys2Proof.Laws.RowOfWord

/-- The instruction's word matches the row of the opcode map that bears its mnemonic. -/
def Statement (i : Instr) : Prop :=
  ∃ r ∈ opcodeTable, r.mnemonic = i.mnemonic ∧ r.hits (encode i) = true

/-- From a row of the table and what its mask makes of the word. -/
theorem of_mask {i : Instr} (r : OpcodeRow) (hm : r ∈ opcodeTable) (hn : r.mnemonic = i.mnemonic)
    (h : encode i &&& r.mask = r.mtch) : Statement i :=
  ⟨r, hm, hn, by simp [OpcodeRow.hits, h]⟩

theorem cls : Statement .cls :=
  of_mask ⟨"CLS", 0x00E0, 0xFFFF⟩ (by decide) rfl (rfl)

theorem ret : Statement .ret :=
  of_mask ⟨"RET", 0x00EE, 0xFFFF⟩ (by decide) rfl (rfl)

theorem jp (nnn : Imm12) : Statement (.jp nnn) :=
  of_mask ⟨"JP", 0x1000, 0xF000⟩ (by decide) rfl (wordA_and _ _)

theorem call (nnn : Imm12) : Statement (.call nnn) :=
  of_mask ⟨"CALL", 0x2000, 0xF000⟩ (by decide) rfl (wordA_and _ _)

theorem seVk (x : Reg) (kk : Byte) : Statement (.seVk x kk) :=
  of_mask ⟨"SE_VK", 0x3000, 0xF000⟩ (by decide) rfl (wordXK_and_family _ _ _)

theorem sneVk (x : Reg) (kk : Byte) : Statement (.sneVk x kk) :=
  of_mask ⟨"SNE_VK", 0x4000, 0xF000⟩ (by decide) rfl (wordXK_and_family _ _ _)

theorem seVv (x y : Reg) : Statement (.seVv x y) :=
  of_mask ⟨"SE_VV", 0x5000, 0xF00F⟩ (by decide) rfl (wordXY_and _ _ _ _)

theorem ldVk (x : Reg) (kk : Byte) : Statement (.ldVk x kk) :=
  of_mask ⟨"LD_VK", 0x6000, 0xF000⟩ (by decide) rfl (wordXK_and_family _ _ _)

theorem addVk (x : Reg) (kk : Byte) : Statement (.addVk x kk) :=
  of_mask ⟨"ADD_VK", 0x7000, 0xF000⟩ (by decide) rfl (wordXK_and_family _ _ _)

theorem ldVv (x y : Reg) : Statement (.ldVv x y) :=
  of_mask ⟨"LD_VV", 0x8000, 0xF00F⟩ (by decide) rfl (wordXY_and _ _ _ _)

theorem orVv (x y : Reg) : Statement (.orVv x y) :=
  of_mask ⟨"OR", 0x8001, 0xF00F⟩ (by decide) rfl (wordXY_and _ _ _ _)

theorem andVv (x y : Reg) : Statement (.andVv x y) :=
  of_mask ⟨"AND", 0x8002, 0xF00F⟩ (by decide) rfl (wordXY_and _ _ _ _)

theorem xorVv (x y : Reg) : Statement (.xorVv x y) :=
  of_mask ⟨"XOR", 0x8003, 0xF00F⟩ (by decide) rfl (wordXY_and _ _ _ _)

theorem addVv (x y : Reg) : Statement (.addVv x y) :=
  of_mask ⟨"ADD_VV", 0x8004, 0xF00F⟩ (by decide) rfl (wordXY_and _ _ _ _)

theorem sub (x y : Reg) : Statement (.sub x y) :=
  of_mask ⟨"SUB", 0x8005, 0xF00F⟩ (by decide) rfl (wordXY_and _ _ _ _)

theorem shr (x y : Reg) : Statement (.shr x y) :=
  of_mask ⟨"SHR", 0x8006, 0xF00F⟩ (by decide) rfl (wordXY_and _ _ _ _)

theorem subn (x y : Reg) : Statement (.subn x y) :=
  of_mask ⟨"SUBN", 0x8007, 0xF00F⟩ (by decide) rfl (wordXY_and _ _ _ _)

theorem shl (x y : Reg) : Statement (.shl x y) :=
  of_mask ⟨"SHL", 0x800E, 0xF00F⟩ (by decide) rfl (wordXY_and _ _ _ _)

theorem sneVv (x y : Reg) : Statement (.sneVv x y) :=
  of_mask ⟨"SNE_VV", 0x9000, 0xF00F⟩ (by decide) rfl (wordXY_and _ _ _ _)

theorem ldI (nnn : Imm12) : Statement (.ldI nnn) :=
  of_mask ⟨"LD_I", 0xA000, 0xF000⟩ (by decide) rfl (wordA_and _ _)

theorem jpV0 (nnn : Imm12) : Statement (.jpV0 nnn) :=
  of_mask ⟨"JP_V0", 0xB000, 0xF000⟩ (by decide) rfl (wordA_and _ _)

theorem rnd (x : Reg) (kk : Byte) : Statement (.rnd x kk) :=
  of_mask ⟨"RND", 0xC000, 0xF000⟩ (by decide) rfl (wordXK_and_family _ _ _)

theorem drw (x y : Reg) (n : Rows) : Statement (.drw x y n) :=
  of_mask ⟨"DRW", 0xD000, 0xF000⟩ (by decide) rfl (wordXY_and_family _ _ _ _)

theorem skp (x : Reg) : Statement (.skp x) :=
  of_mask ⟨"SKP", 0xE09E, 0xF0FF⟩ (by decide) rfl (wordXK_and _ _ _)

theorem sknp (x : Reg) : Statement (.sknp x) :=
  of_mask ⟨"SKNP", 0xE0A1, 0xF0FF⟩ (by decide) rfl (wordXK_and _ _ _)

theorem ldVDt (x : Reg) : Statement (.ldVDt x) :=
  of_mask ⟨"LD_V_DT", 0xF007, 0xF0FF⟩ (by decide) rfl (wordXK_and _ _ _)

theorem ldVKey (x : Reg) : Statement (.ldVKey x) :=
  of_mask ⟨"LD_V_K", 0xF00A, 0xF0FF⟩ (by decide) rfl (wordXK_and _ _ _)

theorem ldDtV (x : Reg) : Statement (.ldDtV x) :=
  of_mask ⟨"LD_DT_V", 0xF015, 0xF0FF⟩ (by decide) rfl (wordXK_and _ _ _)

theorem ldStV (x : Reg) : Statement (.ldStV x) :=
  of_mask ⟨"LD_ST_V", 0xF018, 0xF0FF⟩ (by decide) rfl (wordXK_and _ _ _)

theorem addIV (x : Reg) : Statement (.addIV x) :=
  of_mask ⟨"ADD_I_V", 0xF01E, 0xF0FF⟩ (by decide) rfl (wordXK_and _ _ _)

theorem ldFV (x : Reg) : Statement (.ldFV x) :=
  of_mask ⟨"LD_F_V", 0xF029, 0xF0FF⟩ (by decide) rfl (wordXK_and _ _ _)

theorem ldBV (x : Reg) : Statement (.ldBV x) :=
  of_mask ⟨"LD_B_V", 0xF033, 0xF0FF⟩ (by decide) rfl (wordXK_and _ _ _)

theorem ldMemV (x : Reg) : Statement (.ldMemV x) :=
  of_mask ⟨"LD_MEM_V", 0xF055, 0xF0FF⟩ (by decide) rfl (wordXK_and _ _ _)

theorem ldVMem (x : Reg) : Statement (.ldVMem x) :=
  of_mask ⟨"LD_V_MEM", 0xF065, 0xF0FF⟩ (by decide) rfl (wordXK_and _ _ _)

end Sys2Proof.Laws.RowOfWord
end

