-- ==== Sys2Proof/Tests/Slice0.lean ====
section
/-!
SUPPORT. The model's own tests: ill-formed terms that the checks refuse; every constructor's decoding on a word
written out bit by bit from the layout of its row (30_encoding.md R72, R74); single steps whose expected values
are the vectors of 95_test_vectors.md (the vector's number stands in each comment); and, for every statement with
hypotheses, a state that meets them, at the boundaries of each clause.
-/

namespace Sys2Proof.Machine.Tests

/-! ### Helpers -/

/-- Registers, all 0 but the ones listed. -/
def regs (l : List (Reg × Byte)) : Vector Byte 16 := l.foldl (fun v p => v.set p.1 p.2) (Vector.replicate 16 0)

/-- Keys, all released but the ones listed. -/
def keys (l : List Key) : Vector Bool 16 := l.foldl (fun v (k : Key) => v.set k.val true) (Vector.replicate 16 false)

/-- A framebuffer, all off but the pixels listed as (row, column). -/
def pixels (l : List (Fin 32 × Fin 64)) : Framebuffer := l.foldl (fun fb p => fb.put p.1 p.2 true) .allOff

/-- The state after one step, `s` itself when the step answers none. -/
def stepped (s : State) : State :=
  match step s with
  | .next t => t
  | _ => s

/-- The state after `n` steps. -/
def steps : Nat → State → State
  | 0, s => s
  | n + 1, s => steps n (stepped s)

/-- The state after the step that runs the word `w` from `s`, placed at pc. -/
def run1 (s : State) (w : Nat) : State := stepped (s.withFetchWord 16 w)

/-- The reset state with a program image loaded at 0x200. -/
def loaded (img : List Byte) : State := { State.reset with mem := State.reset.mem.writeBytes 0x200 img }

/-- An image of `n` bytes. -/
def image (n : Nat) : List Byte := List.replicate n 1

theorem image_length (n : Nat) : (image n).length = n := List.length_replicate

/-- Whether the steps from `s` all complete and run the instructions listed. -/
def runs : List Instr → State → Bool
  | [], _ => true
  | i :: is, s =>
    match fetchInstr s, step s with
    | .ok j, .next t => j == i && t.STATUS == .run && runs is t
    | _, _ => false

/-- The check `runs` shows a safe run. -/
theorem safeRun_of_runs (is : List Instr) (s : State) (h : runs is s = true) : SafeRun is s (steps is.length s) := by
  induction is generalizing s with
  | nil => exact .here s
  | cons i is ih =>
    unfold runs at h
    split at h
    · next j t hf hs =>
      simp only [Bool.and_eq_true, beq_iff_eq] at h
      have ht : stepped s = t := by rw [stepped, hs]
      refine .step (h.1.1 ▸ hf) ⟨hs, h.1.2⟩ ?_
      simpa only [List.length_cons, steps, ht] using ih t h.2
    · cases h

/-! ### WellFormed: what the checks refuse -/

/-- One word of each illegal space, and words one bit away from a legal one (30_encoding.md R76). -/
theorem test_wellformed_refuses_illegal_words :
    [0x0000, 0x0123, 0x00E1, 0x00FF, 0x0EE0, 0x5121, 0x512F, 0x8018, 0x801D, 0x801F, 0x9121, 0xE19F, 0xE1A0, 0xE000,
      0xF000, 0xF006, 0xF008, 0xF01F, 0xF030, 0xF056, 0xF066, 0xFFFF].all (fun w => !wordWellFormed w) = true := by
  decide

/-- The legal words of 95_test_vectors.md (Encoding and illegal words). -/
theorem test_wellformed_accepts_legal_words :
    [0x00E0, 0x00EE, 0x5120, 0x9120, 0x8010, 0x801E, 0xE09E, 0xE0A1, 0xF007, 0xF00A, 0xF015, 0xF018, 0xF01E, 0xF029,
      0xF033, 0xF055, 0xF065].all wordWellFormed = true := by
  decide

/-- S9, S10: 3585 bytes are too many, 3584 are not (70_reset_and_hazards.md R253, R254). -/
theorem test_imageFits_boundary :
    imageFits (image 3585) = false ∧ imageFits (image 3584) = true := by
  rw [imageFits, imageFits, image_length, image_length]; decide

/-- Memory that is not canonical: unsorted, repeated, a cell that says what reset leaves (twice), an address
outside; and a canonical one. -/
theorem test_memory_wf :
    Memory.wf [(0x301, 1), (0x300, 1)] = false ∧ Memory.wf [(0x300, 1), (0x300, 2)] = false ∧
    Memory.wf [(0x300, 0)] = false ∧ Memory.wf [(0x000, 0xF0)] = false ∧ Memory.wf [(4096, 1)] = false ∧
    Memory.wf [(0x000, 0xF1), (0x300, 1), (4095, 2)] = true := by
  decide

/-- Writing what reset leaves removes the cell. -/
theorem test_memory_write_canonical :
    (Memory.write [(0x300, 1)] 0x300 0) = [] ∧ (Memory.write [(0x001, 7)] 0x001 0x90) = [] ∧
    (Memory.write [(0x300, 1)] 0x2FF 5) = [(0x2FF, 5), (0x300, 1)] := by
  decide

/-! ### Decoding: a word of every row, bit by bit -/

theorem test_decode_cls : decode 0b0000000011100000 = .ok .cls := rfl
theorem test_decode_ret : decode 0b0000000011101110 = .ok .ret := rfl
theorem test_decode_jp : decode 0b0001001000001000 = .ok (.jp 0x208) := rfl
theorem test_decode_call : decode 0b0010101000110001 = .ok (.call 0xA31) := rfl
theorem test_decode_se_vk : decode 0b0011111100000101 = .ok (.seVk 0xF 0x05) := rfl
theorem test_decode_sne_vk : decode 0b0100001110100001 = .ok (.sneVk 3 0xA1) := rfl
theorem test_decode_se_vv : decode 0b0101000100100000 = .ok (.seVv 1 2) := rfl
theorem test_decode_ld_vk : decode 0b0110101001011100 = .ok (.ldVk 0xA 0x5C) := rfl
theorem test_decode_add_vk : decode 0b0111111100000001 = .ok (.addVk 0xF 0x01) := rfl
theorem test_decode_ld_vv : decode 0b1000000100100000 = .ok (.ldVv 1 2) := rfl
theorem test_decode_or : decode 0b1000111001110001 = .ok (.orVv 0xE 7) := rfl
theorem test_decode_and : decode 0b1000000100100010 = .ok (.andVv 1 2) := rfl
theorem test_decode_xor : decode 0b1000110101000011 = .ok (.xorVv 0xD 4) := rfl
theorem test_decode_add_vv : decode 0b1000111100010100 = .ok (.addVv 0xF 1) := rfl
theorem test_decode_sub : decode 0b1000000100000101 = .ok (.sub 1 0) := rfl
theorem test_decode_shr : decode 0b1000101001010110 = .ok (.shr 0xA 5) := rfl
theorem test_decode_subn : decode 0b1000001101000111 = .ok (.subn 3 4) := rfl
theorem test_decode_shl : decode 0b1000110010011110 = .ok (.shl 0xC 9) := rfl
theorem test_decode_sne_vv : decode 0b1001000100100000 = .ok (.sneVv 1 2) := rfl
theorem test_decode_ld_i : decode 0b1010011111110001 = .ok (.ldI 0x7F1) := rfl
theorem test_decode_jp_v0 : decode 0b1011111110000000 = .ok (.jpV0 0xF80) := rfl
theorem test_decode_rnd : decode 0b1100001100001111 = .ok (.rnd 3 0x0F) := rfl
theorem test_decode_drw : decode 0b1101000011110001 = .ok (.drw 0 0xF 1) := rfl
theorem test_decode_skp : decode 0b1110000110011110 = .ok (.skp 1) := rfl
theorem test_decode_sknp : decode 0b1110010110100001 = .ok (.sknp 5) := rfl
theorem test_decode_ld_v_dt : decode 0b1111001100000111 = .ok (.ldVDt 3) := rfl
theorem test_decode_ld_v_k : decode 0b1111010100001010 = .ok (.ldVKey 5) := rfl
theorem test_decode_ld_dt_v : decode 0b1111000000010101 = .ok (.ldDtV 0) := rfl
theorem test_decode_ld_st_v : decode 0b1111100100011000 = .ok (.ldStV 9) := rfl
theorem test_decode_add_i_v : decode 0b1111001000011110 = .ok (.addIV 2) := rfl
theorem test_decode_ld_f_v : decode 0b1111000000101001 = .ok (.ldFV 0) := rfl
theorem test_decode_ld_b_v : decode 0b1111101100110011 = .ok (.ldBV 0xB) := rfl
theorem test_decode_ld_mem_v : decode 0b1111001001010101 = .ok (.ldMemV 2) := rfl
theorem test_decode_ld_v_mem : decode 0b1111010001100101 = .ok (.ldVMem 4) := rfl

/-- Words of each illegal space are rejected under its name (30_encoding.md R76). -/
theorem test_decode_rejects_by_name :
    decode 0x0EE0 = .error .family0 ∧ decode 0x512F = .error .family5 ∧ decode 0x801F = .error .family8 ∧
    decode 0x9121 = .error .family9 ∧ decode 0xE1A0 = .error .familyE ∧ decode 0xF01F = .error .familyF ∧
    decodeBytes [0x60] = .error .truncated := ⟨rfl, rfl, rfl, rfl, rfl, rfl, rfl⟩

/-- The encoder writes the bytes of 95_test_vectors.md programs P1 to P6 (first bytes first). -/
theorem test_encode_bytes :
    encodeBytes (.ldVk 0 0xFE) = [0x60, 0xFE] ∧ encodeBytes (.call 0x210) = [0x22, 0x10] ∧
    encodeBytes (.drw 0 1 2) = [0xD0, 0x12] ∧ encodeBytes (.subn 3 4) = [0x83, 0x47] ∧
    encodeBytes (.skp 2) = [0xE2, 0x9E] ∧ encodeBytes (.ldVKey 2) = [0xF2, 0x0A] := by
  decide

/-! ### The step: 95_test_vectors.md, step cycle, faults and reset -/

/-- T1. -/
theorem test_tick_both_timers :
    (run1 { State.reset with DT := 5, ST := 1 } 0x6000).DT = 4 ∧
    (run1 { State.reset with DT := 5, ST := 1 } 0x6000).ST = 0 := by decide

/-- T3: no tick on a fault, and the fault is recorded. -/
theorem test_illegal_word_faults_without_tick :
    run1 { State.reset with DT := 5, ST := 5 } 0x0000 =
      { State.reset with DT := 5, ST := 5, STATUS := .fault .illegalInstruction } := by decide

/-- T4: the last word of memory runs, then the fetch at 0x1000 faults. -/
theorem test_fetch_at_the_top :
    (run1 { State.reset with pc := 0xFFE } 0x6001).pc = 0x1000 ∧
    (stepped (run1 { State.reset with pc := 0xFFE } 0x6001)).STATUS = .fault .memoryOutOfRange := by decide

/-- T6: an odd pc fetches like any other. -/
theorem test_fetch_odd_pc :
    (run1 { State.reset with pc := 0x301 } 0x63AA).V[3] = 0xAA ∧
    (run1 { State.reset with pc := 0x301 } 0x63AA).pc = 0x303 := by decide

/-- F2 and F3: the reset port restores every field, and a program loaded then runs. -/
theorem test_reset_then_load_then_step :
    State.resetPort { loaded [0x60] with V := regs [(3, 7)], DT := 4, STATUS := .fault .memoryOutOfRange } =
      State.reset ∧
    (stepped (loaded [0x60, 0x05])).V[0] = 5 ∧ (stepped (loaded [0x60, 0x05])).pc = 0x202 := by decide

/-- F4: the fetch is just in range, the word is legal, and the key check is what faults. -/
theorem test_fault_order :
    (run1 { State.reset with pc := 0xFFE, V := regs [(0, 0x10)] } 0xE09E).STATUS = .fault .keyIndexOutOfRange := by
  decide

/-- M22: a store is what the next step fetches. -/
theorem test_self_modifying_code :
    (steps 2 { loaded [0xF1, 0x55] with I := 0x202, V := regs [(0, 0x60), (1, 0x05)] }).V[0] = 5 ∧
    (steps 1 { loaded [0xF1, 0x55] with I := 0x202, V := regs [(0, 0x60), (1, 0x05)] }).mem.read 0x202 = 0x60 := by
  decide

/-! ### Control flow: vectors C1 to C21, S2 -/

/-- C2. -/
theorem test_ret_pops :
    (run1 { State.reset with pc := 0x400, SP := 2, S := State.reset.S.set 1 0x31A } 0x00EE).pc = 0x31A ∧
    (run1 { State.reset with pc := 0x400, SP := 2, S := State.reset.S.set 1 0x31A } 0x00EE).SP = 1 ∧
    (run1 { State.reset with pc := 0x400, SP := 2, S := State.reset.S.set 1 0x31A } 0x00EE).S[1] = 0x31A := by decide

/-- C1. -/
theorem test_ret_underflow : (run1 State.reset 0x00EE).STATUS = .fault .stackUnderflow := by decide

/-- C4. -/
theorem test_jp : (run1 State.reset 0x1FFF).pc = 0xFFF := by decide

/-- C5. -/
theorem test_call_sixteenth :
    (run1 { State.reset with pc := 0x250, SP := 15 } 0x2300).S[15] = 0x252 ∧
    (run1 { State.reset with pc := 0x250, SP := 15 } 0x2300).SP = 16 ∧
    (run1 { State.reset with pc := 0x250, SP := 15 } 0x2300).pc = 0x300 := by decide

/-- C6. -/
theorem test_call_overflow : (run1 { State.reset with SP := 16 } 0x2300).STATUS = .fault .stackOverflow := by decide

/-- S8, C9. -/
theorem test_jp_v0_masks :
    (run1 { State.reset with V := regs [(0, 0xFF)] } 0xBF80).pc = 0x07F ∧
    (run1 { State.reset with V := regs [(0, 0x01)] } 0xBFFF).pc = 0x000 := by decide

/-- C11, C12. -/
theorem test_se_vk :
    (run1 { State.reset with V := regs [(4, 0x20)] } 0x3420).pc = 0x204 ∧
    (run1 { State.reset with V := regs [(4, 0x21)] } 0x3420).pc = 0x202 := by decide

/-- C14, C15. -/
theorem test_sne_vk :
    (run1 { State.reset with V := regs [(4, 0x20)] } 0x4420).pc = 0x202 ∧
    (run1 State.reset 0x4420).pc = 0x204 := by decide

/-- C16, C17. -/
theorem test_se_vv :
    (run1 { State.reset with V := regs [(1, 3), (2, 3)] } 0x5120).pc = 0x204 ∧
    (run1 { State.reset with V := regs [(1, 3), (2, 4)] } 0x5120).pc = 0x202 := by decide

/-- C19, C20. -/
theorem test_sne_vv :
    (run1 { State.reset with V := regs [(1, 3), (2, 4)] } 0x9120).pc = 0x204 ∧
    (run1 { State.reset with V := regs [(7, 9)] } 0x9770).pc = 0x202 := by decide

/-! ### Registers and the ALU: vectors A1 to A37 -/

/-- A1, A2. -/
theorem test_ld_vk : (run1 State.reset 0x6A5C).V = regs [(0xA, 0x5C)] ∧ (run1 State.reset 0x6F07).V[15] = 0x07 := by
  decide

/-- A3, A4. -/
theorem test_add_vk_sets_no_flag :
    (run1 { State.reset with V := regs [(0, 0xFF)] } 0x7001).V = regs [] ∧
    (run1 { State.reset with V := regs [(15, 1)] } 0x7F01).V[15] = 2 := by decide

/-- A5. -/
theorem test_ld_vv : (run1 { State.reset with V := regs [(2, 0x33)] } 0x8120).V = regs [(1, 0x33), (2, 0x33)] := by
  decide

/-- A6. -/
theorem test_or_keeps_vf :
    (run1 { State.reset with V := regs [(1, 0x0F), (2, 0xF0), (15, 1)] } 0x8121).V =
      regs [(1, 0xFF), (2, 0xF0), (15, 1)] := by decide

/-- A7. -/
theorem test_and :
    (run1 { State.reset with V := regs [(1, 0x3C), (2, 0x0F)] } 0x8122).V = regs [(1, 0x0C), (2, 0x0F)] := by decide

/-- A8. -/
theorem test_xor :
    (run1 { State.reset with V := regs [(1, 0xFF), (2, 0x0F)] } 0x8123).V = regs [(1, 0xF0), (2, 0x0F)] := by decide

/-- A10, A13. -/
theorem test_add_vv_carry :
    (run1 { State.reset with V := regs [(0, 0xC8), (1, 0x64)] } 0x8014).V = regs [(0, 0x2C), (1, 0x64), (15, 1)] ∧
    (run1 { State.reset with V := regs [(0, 0x7F), (1, 0x80)] } 0x8014).V = regs [(0, 0xFF), (1, 0x80)] := by decide

/-- A15, A16: the flag wins; the old VF is the addend. -/
theorem test_add_vv_with_vf :
    (run1 { State.reset with V := regs [(15, 0xFF), (1, 1)] } 0x8F14).V[15] = 1 ∧
    (run1 { State.reset with V := regs [(0, 1), (15, 1)] } 0x80F4).V = regs [(0, 2)] := by decide

/-- A17, A19. -/
theorem test_sub :
    (run1 { State.reset with V := regs [(0, 0x2C), (1, 0x64)] } 0x8105).V = regs [(0, 0x2C), (1, 0x38), (15, 1)] ∧
    (run1 { State.reset with V := regs [(1, 1)] } 0x8015).V = regs [(0, 0xFF), (1, 1)] := by decide

/-- A18, A20: strict at equality; the flag wins. -/
theorem test_sub_flag :
    (run1 { State.reset with V := regs [(0, 5), (1, 5)] } 0x8015).V = regs [(1, 5)] ∧
    (run1 { State.reset with V := regs [(15, 0x10), (1, 1)] } 0x8F15).V[15] = 1 := by decide

/-- A21, A24. -/
theorem test_shr :
    (run1 { State.reset with V := regs [(0, 0x2D)] } 0x8006).V = regs [(0, 0x16), (15, 1)] ∧
    (run1 { State.reset with V := regs [(15, 3)] } 0x8FF6).V[15] = 1 := by decide

/-- A23: y is ignored. -/
theorem test_shr_ignores_y :
    (run1 { State.reset with V := regs [(0, 4), (1, 0xFF)] } 0x8016).V = regs [(0, 2), (1, 0xFF)] := by decide

/-- A25, A27. -/
theorem test_subn :
    (run1 { State.reset with V := regs [(0, 0x10), (1, 0x30)] } 0x8017).V = regs [(0, 0x20), (1, 0x30), (15, 1)] ∧
    (run1 { State.reset with V := regs [(0, 1)] } 0x8017).V = regs [(0, 0xFF)] := by decide

/-- A26, A28: strict at equality; the flag wins. -/
theorem test_subn_flag :
    (run1 { State.reset with V := regs [(0, 7), (1, 7)] } 0x8017).V = regs [(1, 7)] ∧
    (run1 { State.reset with V := regs [(15, 1), (1, 3)] } 0x8F17).V[15] = 1 := by decide

/-- A29, A31. -/
theorem test_shl :
    (run1 { State.reset with V := regs [(0, 0x81)] } 0x800E).V = regs [(0, 0x02), (15, 1)] ∧
    (run1 { State.reset with V := regs [(0, 0x7F)] } 0x800E).V = regs [(0, 0xFE)] := by decide

/-- A32: the flag wins. -/
theorem test_shl_flag : (run1 { State.reset with V := regs [(15, 0x81)] } 0x8FFE).V[15] = 1 := by decide

/-- A34: 0xA7 AND 0x0F is 0x07, when the free byte is 0xA7. -/
theorem test_rnd_masks (h : Config.freeByte 0 = 0xA7) : (run1 State.reset 0xC30F).V[3] = 0x07 := by
  have e : (run1 State.reset 0xC30F).V[3] = Config.freeByte 0 &&& 0x0F := rfl
  rw [e, h]; rfl

/-- A35: with kk = 0 the result is 0 whatever the byte is. -/
theorem test_rnd_zero : (run1 State.reset 0xC300).V[3] = 0x00 := by
  have e : (run1 State.reset 0xC300).V[3] = Config.freeByte 0 &&& 0 := rfl
  rw [e]; exact BitVec.and_zero

/-! ### Index and memory: vectors M1 to M21 -/

/-- M2. -/
theorem test_ld_i : (run1 State.reset 0xAFFF).I = 0xFFF := by decide

/-- M4, M5. -/
theorem test_add_i_v :
    (run1 { State.reset with I := 0xFFF, V := regs [(0, 1)] } 0xF01E).I = 0x1000 ∧
    (run1 { State.reset with I := 0xFFFF, V := regs [(0, 2)] } 0xF01E).I = 0x0001 := by decide

/-- M6, M8. -/
theorem test_ld_f_v :
    (run1 { State.reset with V := regs [(0, 0x0A)] } 0xF029).I = 0x032 ∧
    (run1 { State.reset with V := regs [(0, 0xFF)] } 0xF029).I = 0x4FB := by decide

/-- M9, M11. -/
theorem test_ld_b_v :
    (run1 { State.reset with I := 0x300, V := regs [(0, 0xFE)] } 0xF033).mem.readBytes 0x300 3 = [2, 5, 4] ∧
    (run1 { State.reset with I := 0xFFD, V := regs [(0, 0xFF)] } 0xF033).mem.readBytes 0xFFD 3 = [2, 5, 5] := by decide

/-- M12. -/
theorem test_ld_b_v_out_of_range :
    run1 { State.reset with I := 0xFFE, V := regs [(0, 0xFF)] } 0xF033 =
      { loaded [0xF0, 0x33] with I := 0xFFE, V := regs [(0, 0xFF)], STATUS := .fault .memoryOutOfRange } := by decide

/-- M13, M14. -/
theorem test_ld_mem_v :
    (run1 { State.reset with I := 0x400, V := regs [(0, 1), (1, 2), (2, 3), (3, 4)] } 0xF255).mem.readBytes 0x400 4 =
      [1, 2, 3, 0] ∧
    (run1 { State.reset with I := 0xFFF, V := regs [(0, 0xAB)] } 0xF055).mem.read 0xFFF = 0xAB := by decide

/-- M15, M17. -/
theorem test_ld_mem_v_out_of_range :
    (run1 { State.reset with I := 0xFFF } 0xF155).STATUS = .fault .memoryOutOfRange ∧
    (run1 { State.reset with I := 0x1000 } 0xF055).STATUS = .fault .memoryOutOfRange := by decide

/-- M19: V0 to V4 take the glyph of 0, and V5 keeps its value. -/
theorem test_ld_v_mem_font :
    (run1 { State.reset with V := regs [(5, 7)] } 0xF465).V =
      regs [(0, 0xF0), (1, 0x90), (2, 0x90), (3, 0x90), (4, 0xF0), (5, 7)] := by decide

/-- M20, M21. -/
theorem test_ld_v_mem_all :
    (run1 { State.reset with I := 0x500, mem := [(0x50F, 0x77)] } 0xFF65).V[15] = 0x77 ∧
    (run1 { State.reset with I := 0xFF1 } 0xFF65).STATUS = .fault .memoryOutOfRange := by decide

/-! ### Display: vectors D1 to D13 -/

/-- D1. -/
theorem test_cls : (run1 { State.reset with FB := pixels [(0, 0), (31, 63)] } 0x00E0).FB = .allOff := by decide

/-- D3 to D5: bit 0 is rightmost; columns and rows wrap. -/
theorem test_drw_geometry :
    (run1 { State.reset with I := 0x300, mem := [(0x300, 0x01)] } 0xD011).FB = pixels [(0, 7)] ∧
    (run1 { State.reset with I := 0x300, mem := [(0x300, 0xFF)], V := regs [(0, 60)] } 0xD011).FB =
      pixels [(0, 60), (0, 61), (0, 62), (0, 63), (0, 0), (0, 1), (0, 2), (0, 3)] ∧
    (run1 { State.reset with I := 0x300, mem := [(0x300, 0x80), (0x301, 0x80)], V := regs [(1, 31)] } 0xD012).FB =
      pixels [(31, 0), (0, 0)] := by decide

/-- D7, D8, D10: collision; a 0 bit leaves its pixel; the old VF is the coordinate. -/
theorem test_drw_collision :
    (run1 { State.reset with I := 0x300, mem := [(0x300, 0x80)], FB := pixels [(0, 0)] } 0xD011).V[15] = 1 ∧
    (run1 { State.reset with I := 0x300, mem := [(0x300, 0x80)], FB := pixels [(0, 1)] } 0xD011).FB =
      pixels [(0, 0), (0, 1)] ∧
    (run1 { State.reset with I := 0x300, mem := [(0x300, 0x80)], V := regs [(15, 5)] } 0xD0F1).FB = pixels [(5, 0)] ∧
    (run1 { State.reset with I := 0x300, mem := [(0x300, 0x80)], V := regs [(15, 5)] } 0xD0F1).V[15] = 0 := by decide

/-! ### Timers and keys: vectors K1 to K16 -/

/-- K1. -/
theorem test_ld_v_dt :
    (run1 { State.reset with DT := 4 } 0xF307).V[3] = 4 ∧ (run1 { State.reset with DT := 4 } 0xF307).DT = 3 := by decide

/-- K3, K4. -/
theorem test_ld_dt_v :
    (run1 { State.reset with V := regs [(0, 5)] } 0xF015).DT = 4 ∧ (run1 { State.reset with DT := 9 } 0xF015).DT = 0 := by
  decide

/-- K5, K6. -/
theorem test_ld_st_v :
    (run1 { State.reset with V := regs [(0, 3)] } 0xF018).ST = 2 ∧
    (run1 { State.reset with V := regs [(0, 3)] } 0xF018).soundOn = true ∧
    (run1 { State.reset with V := regs [(0, 1)] } 0xF018).soundOn = false := by decide

/-- K7. -/
theorem test_ld_v_k_lowest :
    (run1 { State.reset with KEY := keys [9, 3] } 0xF50A).V = regs [(5, 3)] ∧
    (run1 { State.reset with KEY := keys [9, 3] } 0xF50A).pc = 0x202 := by decide

/-- K8. -/
theorem test_ld_v_k_waits :
    run1 { State.reset with DT := 2 } 0xF50A = { loaded [0xF5, 0x0A] with DT := 1 } := by decide

/-- K10, K11. -/
theorem test_skp :
    (run1 { State.reset with V := regs [(1, 0xA)], KEY := keys [0xA] } 0xE19E).pc = 0x204 ∧
    (run1 { State.reset with V := regs [(1, 0xA)] } 0xE19E).pc = 0x202 := by decide

/-- K14, K16. -/
theorem test_skp_index :
    (run1 { State.reset with V := regs [(1, 0x10)] } 0xE19E).STATUS = .fault .keyIndexOutOfRange ∧
    (run1 { State.reset with KEY := keys [1] } 0xE19E).pc = 0x202 := by decide

/-- K12, K13. -/
theorem test_sknp :
    (run1 { State.reset with V := regs [(1, 0xA)] } 0xE1A1).pc = 0x204 ∧
    (run1 { State.reset with V := regs [(1, 0xA)], KEY := keys [0xA] } 0xE1A1).pc = 0x202 := by decide

/-- K15. -/
theorem test_sknp_index :
    (run1 { State.reset with V := regs [(1, 0xFF)] } 0xE1A1).STATUS = .fault .keyIndexOutOfRange := by decide

/-! ### Witnesses: for each statement with hypotheses, a state that meets them -/

/-- A state that meets the invariant, with the pc at its bound. -/
theorem witness_inv :
    Inv { loaded [0x60, 0x05] with pc := 0x1002, S := State.reset.S.set 15 0x1000 } :=
  ⟨by decide, by decide, by decide⟩

/-- EveryStepKeepsTheInvariant: a state that meets the invariant and steps, to one that runs on. -/
theorem witness_inv_step :
    Inv (loaded [0x60, 0x05]) ∧ step (loaded [0x60, 0x05]) = .next (stepped (loaded [0x60, 0x05])) ∧
    (stepped (loaded [0x60, 0x05])).STATUS = .run :=
  ⟨⟨by decide, by decide, by decide⟩, rfl, by decide⟩

/-- ReachableSessionsMeetTheInvariant: a session reached by a load, a key write, a step and a reset. -/
theorem witness_reachable :
    Reachable ⟨(stepped ((loaded [0x60, 0x05]).keyWrite 3 true)).resetPort, true⟩ :=
  .act .reset (.act .step (.act (.keyWrite 3 true) (.act (.load [0x60, 0x05]) .start rfl) rfl) rfl) rfl

/-- EveryHostEventKeepsTheInvariant: a session whose core meets the invariant, and each kind of event taken. -/
theorem witness_event :
    Inv Session.start.core ∧ (∃ h, Session.start.act .reset = .next h) ∧
    (∃ h, Session.start.act (.load [0x60, 0x05]) = .next h) ∧
    (∃ h, Session.start.act (.keyWrite 3 true) = .next h) ∧ (∃ h, Session.start.act .step = .next h) :=
  ⟨⟨by decide, by decide, by decide⟩, ⟨_, rfl⟩, ⟨_, rfl⟩, ⟨_, rfl⟩, ⟨_, rfl⟩⟩

/-- EncodeOfDecodeIsTheWord, PlacedWordIsWhatTheNextStepRuns: a word that decodes, its ignored y not zero. -/
theorem witness_decodes : decode 0x8A56 = .ok (.shr 0xA 5) ∧ (0x8A56 : Word).toNat < 2 ^ 16 := ⟨rfl, by decide⟩

/-- StepRunsTheDecodedInstruction and CompletedInstructionsSetPcByKind: at the highest pc that can be fetched
from, an instruction that completes. -/
theorem witness_step_completes :
    let s := { State.reset with pc := 0xFFE, mem := [(0xFFE, 0x60), (0xFFF, 0x01)] }
    s.STATUS = .run ∧ s.pc.toNat + 2 ≤ 4096 ∧
    decode (wordOfBytes (s.mem.read s.pc.toNat) (s.mem.read (s.pc.toNat + 1))) = .ok (.ldVk 0 1) ∧
    exec (.ldVk 0 1) s = .next ((s.setV 0 1).advance) ∧ ((s.setV 0 1).advance).STATUS = .run :=
  ⟨rfl, by decide, rfl, rfl, rfl⟩

/-- StepRunsTheDecodedInstruction: at the same pc, an instruction that faults (F4). -/
theorem witness_step_faults :
    let s := { State.reset with pc := 0xFFE, mem := [(0xFFE, 0xE0), (0xFFF, 0x9E)], V := regs [(0, 0x10)] }
    s.STATUS = .run ∧ s.pc.toNat + 2 ≤ 4096 ∧
    decode (wordOfBytes (s.mem.read s.pc.toNat) (s.mem.read (s.pc.toNat + 1))) = .ok (.skp 0) ∧
    exec (.skp 0) s = .next { s with STATUS := .fault .keyIndexOutOfRange } :=
  ⟨rfl, by decide, rfl, rfl⟩

/-- FetchReadsBigEndianOrFaults and the third clause of CompletedInstructionsSetPcByKind: the lowest pc out of
range, and the highest in range with a word that decodes. -/
theorem witness_fetch :
    let s := { State.reset with pc := 0xFFF }
    let t := { State.reset with pc := 0xFFE, mem := [(0xFFF, 0xE0)] }
    s.STATUS = .run ∧ 4096 < s.pc.toNat + 2 ∧ t.STATUS = .run ∧ t.pc.toNat + 2 ≤ 4096 ∧ decode (wordAtPc t) = .ok .cls :=
  ⟨rfl, by decide, rfl, by decide, rfl⟩

/-- IllegalWordsRaiseIllegalInstruction: no program loaded (T8). -/
theorem witness_illegal_word :
    State.reset.STATUS = .run ∧ State.reset.pc.toNat + 2 ≤ 4096 ∧ decode (wordAtPc State.reset) = .error .family0 :=
  ⟨rfl, by decide, rfl⟩

/-- StepAfterAFaultAnswersItAgain and the second clause of KeyWriteSetsOneKey: a stopped machine (T7). -/
theorem witness_faulted :
    ({ State.reset with DT := 9, STATUS := .fault .stackUnderflow } : State).STATUS = .fault .stackUnderflow := rfl

/-- StepsFaultExactlyOnTheirConditions: running states that fault on the fetch, on the word and on the
instruction's check, and one that completes. -/
theorem witness_step_fault_cases :
    stepFault { State.reset with pc := 0xFFF } = some .memoryOutOfRange ∧
    stepFault State.reset = some .illegalInstruction ∧
    stepFault (loaded [0x00, 0xEE]) = some .stackUnderflow ∧
    stepFault { loaded [0x22, 0x00] with SP := 16 } = some .stackOverflow ∧
    stepFault { loaded [0xE0, 0x9E] with V := regs [(0, 16)] } = some .keyIndexOutOfRange ∧
    stepFault (loaded [0x22, 0x00]) = none := by decide

/-- EveryCompletedStepTicksBothTimers: Fx15, Fx18 and another instruction, each completing. -/
theorem witness_tick :
    (∃ t, fetchInstr (loaded [0xF0, 0x15]) = .ok (.ldDtV 0) ∧ Completes (loaded [0xF0, 0x15]) t) ∧
    (∃ t, fetchInstr (loaded [0xF0, 0x18]) = .ok (.ldStV 0) ∧ Completes (loaded [0xF0, 0x18]) t) ∧
    (∃ t, fetchInstr (loaded [0x00, 0xE0]) = .ok .cls ∧ Completes (loaded [0x00, 0xE0]) t) :=
  ⟨⟨_, rfl, rfl, rfl⟩, ⟨_, rfl, rfl, rfl⟩, ⟨_, rfl, rfl, rfl⟩⟩

/-- DelayTimerReadsItsValueLessTheStepsSince: program P5's write and read with an instruction between them. -/
theorem witness_delay :
    SafeRun (.ldDtV 0 :: [.ldVk 2 1] ++ [.ldVDt 1])
      { loaded [0xF0, 0x15, 0x62, 0x01, 0xF1, 0x07] with V := regs [(0, 3)] }
      (steps 3 { loaded [0xF0, 0x15, 0x62, 0x01, 0xF1, 0x07] with V := regs [(0, 3)] }) ∧
    (∀ z, Instr.ldDtV z ∉ [Instr.ldVk 2 1]) ∧
    (steps 3 { loaded [0xF0, 0x15, 0x62, 0x01, 0xF1, 0x07] with V := regs [(0, 3)] }).V[1] = 1 :=
  ⟨safeRun_of_runs _ _ (by decide), by simp, by decide⟩

/-- OnlyRndReadsTheRandomByte, StateArraysAreReachedOnlyByTheirInstructions, IndexIsReachedOnlyByItsInstructions,
MemoryIsReachedOnlyByItsAccesses: an instruction none of their exceptions names, with a next state. -/
theorem witness_plain_instruction :
    (∀ x kk, Instr.ldVv 1 2 ≠ .rnd x kk) ∧ Instr.ldVv 1 2 ≠ .ret ∧ (∀ nnn, Instr.ldVv 1 2 ≠ .call nnn) ∧
    Instr.ldVv 1 2 ≠ .cls ∧ (∀ x y n, Instr.ldVv 1 2 ≠ .drw x y n) ∧ (∀ x, Instr.ldVv 1 2 ≠ .skp x) ∧
    (∀ x, Instr.ldVv 1 2 ≠ .sknp x) ∧ (∀ x, Instr.ldVv 1 2 ≠ .ldVKey x) ∧ (∀ x, Instr.ldVv 1 2 ≠ .ldVDt x) ∧
    (∀ x, Instr.ldVv 1 2 ≠ .ldDtV x) ∧ (∀ nnn, Instr.ldVv 1 2 ≠ .ldI nnn) ∧ (∀ x, Instr.ldVv 1 2 ≠ .addIV x) ∧
    (∀ x, Instr.ldVv 1 2 ≠ .ldFV x) ∧ (∀ x, Instr.ldVv 1 2 ≠ .ldBV x) ∧ (∀ x, Instr.ldVv 1 2 ≠ .ldMemV x) ∧
    (∀ x, Instr.ldVv 1 2 ≠ .ldVMem x) ∧ ∃ t, exec (.ldVv 1 2) State.reset = .next t := by
  simp only [ne_eq, reduceCtorEq, not_false_eq_true, implies_true, true_and]
  exact ⟨_, rfl⟩

/-- The last clause of IndexIsReachedOnlyByItsInstructions: the lowest I above 4096. -/
theorem witness_index_above : 4096 < ({ State.reset with I := 0x1001 } : State).I.toNat := by decide

/-- VfIsWrittenOnlyAsFlagOrDestination: an instruction that changes VF, and names another destination. -/
theorem witness_vf_changes :
    let s := { State.reset with V := regs [(0, 0xFF), (1, 1)] }
    ∃ t, exec (.addVv 0 1) s = .next t ∧ t.V[VF] ≠ s.V[VF] := ⟨_, rfl, by decide⟩

/-- DrwTogglesTheSpriteAndReportsCollision: the highest I in range and the lowest out of range, for one row, for
two and for none. -/
theorem witness_drw :
    ({ State.reset with I := 0xFFF } : State).I.toNat + (1 : Rows).val ≤ 4096 ∧
    4096 < ({ State.reset with I := 0xFFF } : State).I.toNat + (2 : Rows).val ∧
    ({ State.reset with I := 0x1000 } : State).I.toNat + (0 : Rows).val ≤ 4096 ∧
    4096 < ({ State.reset with I := 0x1001 } : State).I.toNat + (0 : Rows).val := by decide

/-- DrawingTwiceRestoresTheFramebuffer: the first draw of vector S7, and the state it leaves as the second's. -/
theorem witness_draw_twice :
    let s := { State.reset with I := 0x300, mem := [(0x300, 0x80)], FB := pixels [(0, 0)] }
    s.I.toNat + (1 : Rows).val ≤ 4096 ∧ ∃ t s' : State, exec (.drw 0 1 1) s = .next t ∧ s'.FB = t.FB ∧ s'.I = s.I ∧
      (∀ j, j < (1 : Rows).val → s'.mem.read (s.I.toNat + j) = s.mem.read (s.I.toNat + j)) ∧
      s'.V[(0 : Reg)] = s.V[(0 : Reg)] ∧ s'.V[(1 : Reg)] = s.V[(1 : Reg)] := by
  refine ⟨by decide, _, _, rfl, rfl, rfl, fun _ _ => rfl, by decide, by decide⟩

/-- RetPopsThePcOrUnderflows, InstructionsChangeOnlyTheirResults: a full stack, one slot, one slot that holds 0x1000 in a running state, none; and
the state a call leaves. -/
theorem witness_ret :
    ({ State.reset with SP := 16 } : State).SP.val = (15 : Fin 16).val + 1 ∧
    ({ State.reset with SP := 1, S := State.reset.S.set 0 0x1000 } : State).SP.val = (0 : Fin 16).val + 1 ∧
    ({ State.reset with SP := 1, S := State.reset.S.set 0 0x1000 } : State).S[(0 : Fin 16)] = 0x1000 ∧
    State.reset.STATUS = .run ∧ State.reset.SP.val = 0 ∧ ({ State.reset with SP := 15 } : State).SP.val < 16 ∧
    ∃ t, exec (.call 0x300) { State.reset with SP := 15 } = .next t ∧ t.S = t.S ∧ t.SP = t.SP :=
  ⟨by decide, by decide, by decide, by decide, by decide, by decide, _, rfl, rfl, rfl⟩

/-- JpSetsPc: a jump to itself, fetched (C3). -/
theorem witness_jp :
    (loaded [0x12, 0x00]).STATUS = .run ∧ fetchInstr (loaded [0x12, 0x00]) = .ok (.jp 0x200) ∧
    (loaded [0x12, 0x00]).pc.toNat = (0x200 : Imm12).toNat := ⟨rfl, rfl, by decide⟩

/-- CallPushesTheReturnAddressOrOverflows, InstructionsChangeOnlyTheirResults: an empty stack, room for one more, a full one. -/
theorem witness_call :
    State.reset.SP.val = (0 : Fin 16).val ∧ ({ State.reset with SP := 15 } : State).SP.val = (15 : Fin 16).val ∧
    ({ State.reset with SP := 16 } : State).SP.val = 16 := by decide

/-- The last clause of CallPushesTheReturnAddressOrOverflows: program P7. -/
theorem witness_sixteen_calls :
    (loaded [0x22, 0x00]).SP.val = 0 ∧
    SafeRun (List.replicate 16 (.call 0x200)) (loaded [0x22, 0x00]) (steps 16 (loaded [0x22, 0x00])) ∧
    fetchInstr (steps 16 (loaded [0x22, 0x00])) = .ok (.call 0x200) :=
  ⟨by decide, safeRun_of_runs _ _ (by decide), rfl⟩

/-- RegisterSkipsCompareTwoRegisters: words of both families with another low nibble. -/
theorem witness_register_skip_words :
    nBits 0x5121 ≠ 0 ∧ opField 0x5121 = 0x5 ∧ nBits 0x912F ≠ 0 ∧ opField 0x912F = 0x9 := by decide

/-- AddVvAddsWithCarryIntoVf, SubtractionsWriteStrictNotBorrow, ShiftsDropOneBitIntoVf: a destination that is not
VF, next to the one that is. -/
theorem witness_not_vf : (14 : Reg) ≠ VF ∧ (0 : Reg) ≠ VF := by decide

/-- IndexLoadsTakeNnnAndTheGlyphAddress: the I of its last clause, with the least extents. -/
theorem witness_index_top :
    ({ State.reset with I := 0xFFF } : State).I = 0xFFF ∧ 2 ≤ (2 : Rows).val ∧ (1 : Reg) ≠ 0 := by decide

/-- LdBVStoresThreeDigitsOrFaults: the highest I in range, the lowest out of range. -/
theorem witness_ld_b_v :
    ({ State.reset with I := 0xFFD } : State).I.toNat + 3 ≤ 4096 ∧
    4096 < ({ State.reset with I := 0xFFE } : State).I.toNat + 3 := by decide

/-- LdMemVStoresTheBlockOrFaults, LdVMemLoadsTheBlockOrFaults, LoadAfterStoreRestoresTheBlock: the bounds for the
shortest and the longest block. -/
theorem witness_block :
    ({ State.reset with I := 0xFFF } : State).I.toNat + ((0 : Reg).val + 1) ≤ 4096 ∧
    4096 < ({ State.reset with I := 0xFFF } : State).I.toNat + ((1 : Reg).val + 1) ∧
    ({ State.reset with I := 0xFF0 } : State).I.toNat + ((15 : Reg).val + 1) ≤ 4096 ∧
    4096 < ({ State.reset with I := 0xFF1 } : State).I.toNat + ((15 : Reg).val + 1) := by decide

/-- LdVKeyTakesTheLowestPressedKeyOrWaits: the highest key alone, two keys, none. -/
theorem witness_ld_v_k :
    ((keys [15])[(15 : Key)] = true ∧ ∀ j : Key, j < 15 → (keys [15])[j] = false) ∧
    ((keys [9, 3])[(3 : Key)] = true ∧ ∀ j : Key, j < 3 → (keys [9, 3])[j] = false) ∧
    (∀ k : Key, State.reset.KEY[k] = false) := by decide

/-- KeySkipsTestTheKeyInVxOrFault: the highest key index and the lowest value that is none. -/
theorem witness_key_skip :
    ({ State.reset with V := regs [(1, 15)] } : State).V[(1 : Reg)].toNat = (15 : Key).val ∧
    15 < ({ State.reset with V := regs [(1, 16)] } : State).V[(1 : Reg)].toNat := by decide

/-- LoadCopiesTheImageOnceOrFaults: a session that admits a load, one that does not, images at the limit and
above it, and a step with a next session. -/
theorem witness_load :
    Session.start.core.STATUS = .run ∧ Session.start.loadOpen = true ∧
    (⟨loaded [0x60, 0x05], false⟩ : Session).core.STATUS = .run ∧
    (⟨loaded [0x60, 0x05], false⟩ : Session).loadOpen = false ∧
    (image 3584).length ≤ 3584 ∧ 3584 < (image 3585).length ∧
    ∃ h', Session.start.act .step = .next h' :=
  ⟨rfl, rfl, rfl, rfl, (image_length 3584).le, (image_length 3585).symm ▸ by decide, _, rfl⟩

/-- S9: a rejected load records its fault, and the step after it answers that fault. -/
theorem test_load_too_large (img : List Byte) (h : imageFits img = false) :
    Session.start.act (.load img) = .next ⟨{ State.reset with STATUS := .fault .programTooLarge }, false⟩ ∧
    (⟨{ State.reset with STATUS := .fault .programTooLarge }, false⟩ : Session).act .step =
      .fault .programTooLarge := by
  refine ⟨?_, rfl⟩
  show closeLoad (State.loadImage img State.reset) = _
  rw [State.loadImage, h]; rfl

/-- A second load and a load after the first step are refused (70_reset_and_hazards.md R253). -/
theorem test_load_refused :
    (⟨loaded [0x60, 0x05], false⟩ : Session).act (.load [0x60]) = .refused .loadNotAdmitted := rfl

/-- P4's first draw read through fb_read: pixel [31][62] at index 31·64 + 62, and its neighbour. -/
theorem test_fb_read :
    ({ State.reset with FB := pixels [(31, 62)] } : State).fbRead[31 * 64 + 62]? = some true ∧
    ({ State.reset with FB := pixels [(31, 62)] } : State).fbRead[31 * 64 + 61]? = some false := by decide +kernel

/-- SoundIsOnExactlyWhileStIsNotZero on both sides of its boundary. -/
theorem witness_sound :
    ({ State.reset with ST := 1 } : State).soundOn = true ∧ State.reset.soundOn = false := by decide

/-- The fault codes of 60_exceptions.md R220. -/
theorem test_fault_codes :
    [Status.run, .fault .programTooLarge, .fault .stackOverflow, .fault .stackUnderflow, .fault .memoryOutOfRange,
      .fault .illegalInstruction, .fault .keyIndexOutOfRange].map Status.code = [0, 1, 2, 3, 4, 5, 6] := by decide

end Sys2Proof.Machine.Tests
end

section
/-!
PROOFS. Which instruction reaches which state (10_state.md, 20_memory.md, Address spaces). An overlay replaces some
fields of the state; an instruction that reaches none of them does the same under it and hands it on. Every
statement that some state is neither read nor written is one use of that.
-/

namespace Sys2Proof.Machine

/-! ### Overlays -/

/-- New values for some fields of the state, `none` where the field stays. V, pc and STATUS have no entry: nearly
every instruction reaches them. -/
structure Overlay where
  mem : Option Memory := none
  I : Option Word := none
  S : Option (Vector Word 16) := none
  SP : Option (Fin 17) := none
  DT : Option Byte := none
  ST : Option Byte := none
  FB : Option Framebuffer := none
  KEY : Option (Vector Bool 16) := none
  draws : Option Nat := none

/-- The state with the overlay's values in place of its own. -/
def Overlay.on (o : Overlay) (s : State) : State :=
  { s with
    mem := o.mem.getD s.mem
    I := o.I.getD s.I
    S := o.S.getD s.S
    SP := o.SP.getD s.SP
    DT := o.DT.getD s.DT
    ST := o.ST.getD s.ST
    FB := o.FB.getD s.FB
    KEY := o.KEY.getD s.KEY
    draws := o.draws.getD s.draws }

/-- Whether the overlay leaves alone every field that the instruction reads or writes at execute. -/
def Overlay.avoids (o : Overlay) : Instr → Bool
  | .ret | .call _ => o.S.isNone && o.SP.isNone
  | .cls => o.FB.isNone
  | .drw _ _ _ => o.FB.isNone && o.I.isNone && o.mem.isNone
  | .skp _ | .sknp _ | .ldVKey _ => o.KEY.isNone
  | .ldVDt _ | .ldDtV _ => o.DT.isNone
  | .ldStV _ => o.ST.isNone
  | .rnd _ _ => o.draws.isNone
  | .ldI _ | .addIV _ | .ldFV _ => o.I.isNone
  | .ldBV _ | .ldMemV _ | .ldVMem _ => o.I.isNone && o.mem.isNone
  | .jp _ | .jpV0 _ | .seVk _ _ | .sneVk _ _ | .seVv _ _ | .sneVv _ _ | .ldVk _ _ | .addVk _ _ | .ldVv _ _
  | .orVv _ _ | .andVv _ _ | .xorVv _ _ | .addVv _ _ | .sub _ _ | .shr _ _ | .subn _ _ | .shl _ _ => true

/-! ### Reading a field under an overlay -/

@[simp] theorem overlay_V (o : Overlay) (s : State) : (o.on s).V = s.V := rfl

theorem overlay_mem {o : Overlay} (h : o.mem = none) (s : State) : (o.on s).mem = s.mem := by simp [Overlay.on, h]
theorem overlay_I {o : Overlay} (h : o.I = none) (s : State) : (o.on s).I = s.I := by simp [Overlay.on, h]
theorem overlay_S {o : Overlay} (h : o.S = none) (s : State) : (o.on s).S = s.S := by simp [Overlay.on, h]
theorem overlay_SP {o : Overlay} (h : o.SP = none) (s : State) : (o.on s).SP = s.SP := by simp [Overlay.on, h]
theorem overlay_FB {o : Overlay} (h : o.FB = none) (s : State) : (o.on s).FB = s.FB := by simp [Overlay.on, h]
theorem overlay_KEY {o : Overlay} (h : o.KEY = none) (s : State) : (o.on s).KEY = s.KEY := by simp [Overlay.on, h]

/-! ### The shared operations under an overlay -/

/-- The range check reads its base only, and its fault hands every other field on. -/
theorem checkRange_overlay {o : Overlay} (base : Word) (ext : Nat) (s : State) {k k' : Result}
    (h : k' = mapNext o.on k) : checkRange base ext (o.on s) k' = mapNext o.on (checkRange base ext s k) := by
  subst h
  by_cases hr : base.toNat + ext ≤ 4096
  · rw [checkRange_ok _ _ hr, checkRange_ok _ _ hr]
  · rw [checkRange_fault _ _ (by omega), checkRange_fault _ _ (by omega)]; rfl

theorem storeAtIndex_overlay {o : Overlay} (hI : o.I = none) (hmem : o.mem = none) (bs : List Byte) (s : State) :
    storeAtIndex bs (o.on s) = mapNext o.on (storeAtIndex bs s) := by
  rw [storeAtIndex, overlay_I hI, overlay_mem hmem]
  refine checkRange_overlay _ _ s ?_
  simp [mapNext, State.advance, Overlay.on, hI, hmem]

theorem setBlockFrom_overlay (o : Overlay) (s : State) (j : Nat) (bs : List Byte) :
    (o.on s).setBlockFrom j bs = o.on (s.setBlockFrom j bs) := by
  rw [setBlockFrom_eq, setBlockFrom_V (overlay_V o s), setBlockFrom_eq s]; rfl

theorem skipOnKey_overlay {o : Overlay} (hKEY : o.KEY = none) (p : Bool) (x : Reg) (s : State) :
    skipOnKey p x (o.on s) = mapNext o.on (skipOnKey p x s) := by
  by_cases h : s.V[x].toNat ≤ 15
  · have hk : s.V[x].toNat = (⟨s.V[x].toNat, by omega⟩ : Key).val := rfl
    rw [skipOnKey_ok hk, skipOnKey_ok (s := o.on s) hk]
    simp [mapNext, Overlay.on, hKEY]
  · have hv : 15 < s.V[x].toNat := by omega
    rw [skipOnKey_fault hv, skipOnKey_fault (s := o.on s) hv]; rfl

/-! ### The instructions with more than one outcome under an overlay -/

theorem execRet_overlay {o : Overlay} (hS : o.S = none) (hSP : o.SP = none) (s : State) :
    execRet (o.on s) = mapNext o.on (execRet s) := by
  have hsp := overlay_SP hSP s
  by_cases h : s.SP.val = 0
  · rw [execRet_empty h, execRet_empty (hsp ▸ h)]; rfl
  · have hlt : s.SP.val - 1 < 16 := by omega
    rw [execRet_held h hlt, execRet_held (hsp ▸ h) (hsp ▸ hlt)]
    simp [mapNext, Overlay.on, hS, hSP]

theorem execCall_overlay {o : Overlay} (hS : o.S = none) (hSP : o.SP = none) (nnn : Imm12) (s : State) :
    execCall nnn (o.on s) = mapNext o.on (execCall nnn s) := by
  have hsp := overlay_SP hSP s
  by_cases h : s.SP.val = 16
  · rw [execCall_full nnn h, execCall_full nnn (hsp ▸ h)]; rfl
  · have hlt : s.SP.val < 16 := by omega
    rw [execCall_room nnn hlt, execCall_room nnn (hsp ▸ hlt)]
    simp [mapNext, Overlay.on, hS, hSP]

theorem execDrw_overlay {o : Overlay} (hFB : o.FB = none) (hI : o.I = none) (hmem : o.mem = none)
    (x y : Reg) (n : Rows) (s : State) : execDrw x y n (o.on s) = mapNext o.on (execDrw x y n s) := by
  rw [execDrw, overlay_I hI, overlay_mem hmem, overlay_FB hFB]
  refine checkRange_overlay _ _ s ?_
  simp [mapNext, State.advance, State.setV, State.reg, Overlay.on, hFB, hI, hmem]

theorem execLdVMem_overlay {o : Overlay} (hI : o.I = none) (hmem : o.mem = none) (x : Reg) (s : State) :
    execLdVMem x (o.on s) = mapNext o.on (execLdVMem x s) := by
  rw [execLdVMem, overlay_I hI, overlay_mem hmem, setBlockFrom_overlay]
  exact checkRange_overlay _ _ s rfl

theorem execLdVKey_overlay {o : Overlay} (hKEY : o.KEY = none) (x : Reg) (s : State) :
    execLdVKey x (o.on s) = mapNext o.on (execLdVKey x s) := by
  have hkey := overlay_KEY hKEY s
  cases h : lowestPressed s.KEY with
  | none => rw [execLdVKey_none x h, execLdVKey_none x (hkey ▸ h)]; rfl
  | some k => rw [execLdVKey_some x h, execLdVKey_some x (hkey ▸ h)]; rfl

/-! ### Noninterference -/

/-- An instruction does the same whatever the fields it does not reach hold, and hands them on. -/
theorem exec_overlay {o : Overlay} {i : Instr} (h : o.avoids i = true) (s : State) :
    exec i (o.on s) = mapNext o.on (exec i s) := by
  cases i with
  | ret =>
    obtain ⟨hS, hSP⟩ : o.S = none ∧ o.SP = none := by simpa [Overlay.avoids] using h
    exact execRet_overlay hS hSP s
  | call nnn =>
    obtain ⟨hS, hSP⟩ : o.S = none ∧ o.SP = none := by simpa [Overlay.avoids] using h
    exact execCall_overlay hS hSP nnn s
  | drw x y n =>
    obtain ⟨⟨hFB, hI⟩, hmem⟩ : (o.FB = none ∧ o.I = none) ∧ o.mem = none := by
      simpa [Overlay.avoids] using h
    exact execDrw_overlay hFB hI hmem x y n s
  | skp x => exact skipOnKey_overlay (Option.isNone_iff_eq_none.1 h) true x s
  | sknp x => exact skipOnKey_overlay (Option.isNone_iff_eq_none.1 h) false x s
  | ldVKey x => exact execLdVKey_overlay (Option.isNone_iff_eq_none.1 h) x s
  | ldBV _ | ldMemV _ =>
    obtain ⟨hI, hmem⟩ : o.I = none ∧ o.mem = none := by simpa [Overlay.avoids] using h
    exact storeAtIndex_overlay hI hmem _ s
  | ldVMem x =>
    obtain ⟨hI, hmem⟩ : o.I = none ∧ o.mem = none := by simpa [Overlay.avoids] using h
    exact execLdVMem_overlay hI hmem x s
  | cls | ldVDt _ | ldDtV _ | ldStV _ | rnd _ _ | ldI _ | addIV _ | ldFV _ =>
    obtain ⟨⟩ := o; cases Option.isNone_iff_eq_none.1 h; rfl
  | _ => rfl

/-- An overlay of a state's own values is still one of the next state's own: what an instruction does not reach,
it leaves. -/
theorem exec_keeps_overlay {o : Overlay} {i : Instr} {s t : State} (h : o.avoids i = true) (hs : o.on s = s)
    (ht : exec i s = .next t) : o.on t = t := by
  have hcommute := exec_overlay h s
  rw [hs, ht] at hcommute
  injection hcommute with hcommute
  exact hcommute.symm

/-! ### KEY and I are left -/

/-- No instruction writes KEY (10_state.md R31): those that read it, through the cases of what they do; every other
one does not reach it. -/
theorem exec_KEY {i : Instr} {s t : State} (ht : exec i s = .next t) : t.KEY = s.KEY := by
  have unreached (h : ({ KEY := some s.KEY } : Overlay).avoids i = true) : t.KEY = s.KEY :=
    (congrArg State.KEY (exec_keeps_overlay h rfl ht)).symm
  cases i with
  | skp _ | sknp _ =>
    obtain ⟨_, _, rfl⟩ | ⟨_, rfl⟩ := skipOnKey_next ht <;> rfl
  | ldVKey x =>
    change execLdVKey x s = _ at ht
    cases h : lowestPressed s.KEY with
    | none => rw [execLdVKey_none x h] at ht; cases ht; rfl
    | some k => rw [execLdVKey_some x h] at ht; cases ht; rfl
  | _ => exact unreached rfl

/-- Only Annn, Fx1E and Fx29 write I: the four that use it as an address keep it, and every other instruction does
not reach it. -/
theorem exec_I {i : Instr} {s t : State} (ht : exec i s = .next t) (hldI : ∀ nnn, i ≠ .ldI nnn)
    (haddIV : ∀ x, i ≠ .addIV x) (hldFV : ∀ x, i ≠ .ldFV x) : t.I = s.I := by
  have unreached (h : ({ I := some s.I } : Overlay).avoids i = true) : t.I = s.I :=
    (congrArg State.I (exec_keeps_overlay h rfl ht)).symm
  cases i with
  | ldI nnn => exact absurd rfl (hldI nnn)
  | addIV x => exact absurd rfl (haddIV x)
  | ldFV x => exact absurd rfl (hldFV x)
  | ldBV _ | ldMemV _ =>
    obtain ⟨_, rfl⟩ | ⟨_, rfl⟩ := storeAtIndex_next ht <;> rfl
  | drw _ _ _ =>
    obtain ⟨_, hk⟩ | ⟨_, rfl⟩ := checkRange_next ht
    · cases hk; rfl
    · rfl
  | ldVMem _ =>
    obtain ⟨_, hk⟩ | ⟨_, rfl⟩ := checkRange_next ht
    · cases hk; rw [setBlockFrom_eq]; rfl
    · rfl
  | _ => exact unreached rfl

/-! ### One state array each -/

theorem exec_with_stack {i : Instr} (s : State) (hret : i ≠ .ret) (hcall : ∀ nnn, i ≠ .call nnn)
    (S : Vector Word 16) (SP : Fin 17) :
    exec i { s with S := S, SP := SP } = mapNext (fun t => { t with S := S, SP := SP }) (exec i s) := by
  refine exec_overlay (o := { S := some S, SP := some SP }) ?_ s
  cases i with
  | ret => exact absurd rfl hret
  | call nnn => exact absurd rfl (hcall nnn)
  | _ => rfl

theorem exec_with_FB {i : Instr} (s : State) (hcls : i ≠ .cls) (hdrw : ∀ x y n, i ≠ .drw x y n)
    (FB : Framebuffer) :
    exec i { s with FB := FB } = mapNext (fun t => { t with FB := FB }) (exec i s) := by
  refine exec_overlay (o := { FB := some FB }) ?_ s
  cases i with
  | cls => exact absurd rfl hcls
  | drw x y n => exact absurd rfl (hdrw x y n)
  | _ => rfl

theorem exec_with_KEY {i : Instr} (s : State) (hskp : ∀ x, i ≠ .skp x) (hsknp : ∀ x, i ≠ .sknp x)
    (hldVKey : ∀ x, i ≠ .ldVKey x) (KEY : Vector Bool 16) :
    exec i { s with KEY := KEY } = mapNext (fun t => { t with KEY := KEY }) (exec i s) := by
  refine exec_overlay (o := { KEY := some KEY }) ?_ s
  cases i with
  | skp x => exact absurd rfl (hskp x)
  | sknp x => exact absurd rfl (hsknp x)
  | ldVKey x => exact absurd rfl (hldVKey x)
  | _ => rfl

theorem exec_with_DT {i : Instr} (s : State) (hldVDt : ∀ x, i ≠ .ldVDt x) (hldDtV : ∀ x, i ≠ .ldDtV x)
    (DT : Byte) :
    exec i { s with DT := DT } = mapNext (fun t => { t with DT := DT }) (exec i s) := by
  refine exec_overlay (o := { DT := some DT }) ?_ s
  cases i with
  | ldVDt x => exact absurd rfl (hldVDt x)
  | ldDtV x => exact absurd rfl (hldDtV x)
  | _ => rfl

/-- Settles O22: each clause is one overlay of `exec_overlay`, and `exec_KEY` for the keys. -/
theorem stateArraysAreReachedOnlyByTheirInstructions :
    Obligations.StateArraysAreReachedOnlyByTheirInstructions := by
  intro i s
  exact ⟨exec_with_stack s, exec_with_FB s, exec_with_KEY s, fun _ => exec_KEY, exec_with_DT s⟩

/-! ### The index register -/

/-- An I above 4096 is out of range for every extent, 0 included (D17): the four users of I as an address fault. -/
theorem exec_index_above_memory {s : State} (x y : Reg) (n : Rows) (h : 4096 < s.I.toNat) {i : Instr}
    (hi : i ∈ [.drw x y n, .ldBV x, .ldMemV x, .ldVMem x]) :
    exec i s = .next { s with STATUS := .fault .memoryOutOfRange } := by
  simp only [List.mem_cons, List.not_mem_nil, or_false] at hi
  obtain rfl | rfl | rfl | rfl := hi
  · exact execDrw_fault (by omega)
  · exact storeAtIndex_fault (by omega)
  · exact storeAtIndex_fault (by omega)
  · exact execLdVMem_fault (by omega)

/-- Settles O23: writers by `exec_I`, readers by the overlay of I (Annn and Fx29 overwrite it unread), the values
written by evaluation, and the faults by `exec_index_above_memory`. -/
theorem indexIsReachedOnlyByItsInstructions : Obligations.IndexIsReachedOnlyByItsInstructions := by
  refine ⟨fun i s t => exec_I, fun i s v hdrw haddIV hldBV hldMemV hldVMem => ?_,
    fun nnn x s => ⟨⟨_, rfl, rfl⟩, ⟨_, rfl, rfl⟩, ⟨_, rfl, rfl⟩⟩,
    fun x y n s h i hi => exec_index_above_memory x y n h hi⟩
  cases i with
  | drw x y n => exact absurd rfl (hdrw x y n)
  | addIV x => exact absurd rfl (haddIV x)
  | ldBV x => exact absurd rfl (hldBV x)
  | ldMemV x => exact absurd rfl (hldMemV x)
  | ldVMem x => exact absurd rfl (hldVMem x)
  | ldI _ | ldFV _ => rfl
  | _ => exact exec_overlay (o := { I := some v }) rfl s

/-! ### Sound -/

/-- Settles O54. -/
theorem soundIsOnExactlyWhileStIsNotZero : Obligations.SoundIsOnExactlyWhileStIsNotZero := by
  intro s
  calc s.soundOn = true ↔ s.ST ≠ 0 := bne_iff_ne
    _ ↔ s.ST.toNat ≠ 0 := not_congr BitVec.toNat_inj.symm

end Sys2Proof.Machine
end

section
/-!
PROOFS. The operand fields as the bits of the word (30_encoding.md R71).
-/

namespace Sys2Proof

/-- Dxyn's row count is the low nibble. -/
theorem nField_val (w : Word) : (nField w).val = w.toNat % 16 := by
  rw [nField, regOfBits_val, nBits_toNat]

/-- Settles O9: one law per field, with the powers of two evaluated. -/
theorem operandFieldsAreTheirBits : Obligations.OperandFieldsAreTheirBits := by
  intro w
  exact ⟨opField_toNat w, xField_val w, yField_val w, nField_val w, nBits_toNat w, kkField_toNat w, nnnField_toNat w⟩

end Sys2Proof
end

section
/-!
PROOFS. The step cycle (40_step_cycle.md): what the fetch gives, what execute answers by the instruction's own check,
and from these what a step returns and where it leaves pc.
-/

namespace Sys2Proof.Machine

/-! ### Fetch (40_step_cycle.md R101) -/

/-- The word at pc as a number is the two bytes put together big-endian. -/
theorem wordAtPc_eq (s : State) :
    wordAtPc s = wordOfBytes (s.mem.read s.pc.toNat) (s.mem.read (s.pc.toNat + 1)) := by
  rw [wordAtPc, ← wordOfBytes_toNat, BitVec.ofNat_toNat, BitVec.setWidth_eq]

theorem fetchInstr_outside {s : State} (h : 4096 < s.pc.toNat + 2) :
    fetchInstr s = .error .memoryOutOfRange := by
  rw [fetchInstr, fetchWord_outside h]

theorem fetchInstr_decoded {s : State} {i : Instr} (hpc : s.pc.toNat + 2 ≤ 4096)
    (hi : decode (wordAtPc s) = .ok i) : fetchInstr s = .ok i := by
  rw [wordAtPc_eq] at hi
  rw [fetchInstr, fetchWord_inRange hpc]
  simp only [hi]

/-- A pc out of range faults at the fetch, whatever memory holds. -/
theorem raises_of_pc_outside {s : State} (hrun : s.STATUS = .run) (h : 4096 < s.pc.toNat + 2) :
    Raises .memoryOutOfRange s := by
  rw [Raises, step_running hrun, fetchInstr_outside h]; rfl

theorem step_decoded {s : State} {i : Instr} (hrun : s.STATUS = .run) (hpc : s.pc.toNat + 2 ≤ 4096)
    (hi : decode (wordAtPc s) = .ok i) : step s = completeStep (exec i s) := by
  rw [step_running hrun, fetchInstr_decoded hpc hi]

/-- Settles O12: the range check comes first, and the word fetched is the one at pc. -/
theorem fetchReadsBigEndianOrFaults : Obligations.FetchReadsBigEndianOrFaults := by
  intro s hrun
  exact ⟨raises_of_pc_outside hrun, fun hpc _ => step_decoded hrun hpc⟩

/-! ### Execute when the instruction's own check fails -/

/-- Execute takes exactly the fault that the table of checks names. -/
theorem exec_of_checkFault {s : State} {i : Instr} {f : Fault} (h : checkFault s i = some f) :
    exec i s = takeFault f s := by
  cases i with
  | call nnn =>
    obtain ⟨hsp, ⟨⟩⟩ := Option.ite_none_right_eq_some.1 h
    exact execCall_full nnn hsp
  | ret =>
    obtain ⟨hsp, ⟨⟩⟩ := Option.ite_none_right_eq_some.1 h
    exact execRet_empty hsp
  | drw x y n =>
    obtain ⟨hI, ⟨⟩⟩ := Option.ite_none_right_eq_some.1 h
    exact execDrw_fault hI
  | ldBV _ =>
    obtain ⟨hI, ⟨⟩⟩ := Option.ite_none_right_eq_some.1 h
    exact storeAtIndex_fault hI
  | ldMemV x =>
    obtain ⟨hI, ⟨⟩⟩ := Option.ite_none_right_eq_some.1 h
    exact storeAtIndex_fault (by rwa [block_length])
  | ldVMem _ =>
    obtain ⟨hI, ⟨⟩⟩ := Option.ite_none_right_eq_some.1 h
    exact execLdVMem_fault hI
  | skp _ | sknp _ =>
    obtain ⟨hv, ⟨⟩⟩ := Option.ite_none_right_eq_some.1 h
    exact skipOnKey_fault hv
  | _ => cases h

/-! ### Execute when the instruction completes -/

/-- `r` is a completed execute of `i` from `s`: a next state with STATUS kept and pc where the kind of `i` puts it
(40_step_cycle.md R106). -/
def CompletesExec (s : State) (i : Instr) (r : Result) : Prop :=
  ∃ t, r = .next t ∧ t.STATUS = s.STATUS ∧ t.pc = nextPc s i

theorem skipIf_beq_pc (s : State) (a b : Byte) :
    (s.skipIf (a == b)).pc = if a = b then s.pc + 4 else s.pc + 2 := by simp

theorem skipIf_bne_pc (s : State) (a b : Byte) :
    (s.skipIf (a != b)).pc = if a ≠ b then s.pc + 4 else s.pc + 2 := by simp

/-- The key that `V[x]` names is the only one a key skip looks at. -/
theorem key_of_value_iff {v : Byte} {k : Key} (hk : v.toNat = k.val) (P : Key → Prop) :
    (∃ j : Key, v.toNat = j.val ∧ P j) ↔ P k := by
  refine ⟨fun ⟨j, hj, hP⟩ => ?_, fun hP => ⟨k, hk, hP⟩⟩
  rwa [Fin.ext (hk.symm.trans hj)]

theorem skipOnKey_completes {s : State} {x : Reg} (h : s.V[x].toNat ≤ 15) (p : Bool) :
    skipOnKey p x s = .next { s with
      pc := if ∃ k : Key, s.V[x].toNat = k.val ∧ s.KEY[k] = p then s.pc + 4 else s.pc + 2 } := by
  have hk : s.V[x].toNat = (⟨s.V[x].toNat, by omega⟩ : Key).val := rfl
  simp only [skipOnKey_ok hk, key_of_value_iff hk (fun k => s.KEY[k] = p), beq_iff_eq]

/-- Fx0A goes on exactly when some key is pressed. -/
theorem execLdVKey_completes (s : State) (x : Reg) : CompletesExec s (.ldVKey x) (execLdVKey x s) := by
  cases h : lowestPressed s.KEY with
  | none =>
    have hnone : ¬ ∃ k : Key, s.KEY[k] = true := by simp [lowestPressed_none h]
    exact ⟨_, execLdVKey_none x h, rfl, (if_neg hnone).symm⟩
  | some k =>
    have hsome : ∃ k : Key, s.KEY[k] = true := ⟨k, (lowestPressed_some h).1⟩
    exact ⟨_, execLdVKey_some x h, rfl, (if_pos hsome).symm⟩

/-- A check that raises nothing has found its condition false. -/
theorem not_of_check_none {p : Prop} [Decidable p] {f : Fault} (h : (if p then some f else none) = none) : ¬ p :=
  fun hp => nomatch ite_eq_right_iff.1 h hp

/-- An instruction whose own check passes completes and sets pc by its kind. -/
theorem exec_completes {s : State} {i : Instr} (h : checkFault s i = none) :
    CompletesExec s i (exec i s) := by
  cases i with
  | call nnn =>
    have hsp : s.SP.val ≠ 16 := not_of_check_none h
    exact ⟨_, execCall_room nnn (by omega), rfl, rfl⟩
  | ret =>
    have hsp : s.SP.val ≠ 0 := not_of_check_none h
    exact ⟨_, execRet_held hsp (by omega), rfl, rfl⟩
  | drw x y n =>
    have hI : s.I.toNat + n.val ≤ 4096 := Nat.not_lt.1 (not_of_check_none h)
    exact ⟨_, execDrw_ok hI, rfl, rfl⟩
  | ldBV _ =>
    have hI : s.I.toNat + 3 ≤ 4096 := Nat.not_lt.1 (not_of_check_none h)
    exact ⟨_, storeAtIndex_ok hI, rfl, rfl⟩
  | ldMemV x =>
    have hI : s.I.toNat + (x.val + 1) ≤ 4096 := Nat.not_lt.1 (not_of_check_none h)
    exact ⟨_, storeAtIndex_ok (by rwa [block_length]), rfl, rfl⟩
  | ldVMem x =>
    have hI : s.I.toNat + (x.val + 1) ≤ 4096 := Nat.not_lt.1 (not_of_check_none h)
    exact ⟨_, execLdVMem_ok hI, rfl, rfl⟩
  | skp x | sknp x =>
    have hv : s.V[x].toNat ≤ 15 := Nat.not_lt.1 (not_of_check_none h)
    exact ⟨_, skipOnKey_completes hv _, rfl, rfl⟩
  | ldVKey x => exact execLdVKey_completes s x
  | seVk _ _ | seVv _ _ => exact ⟨_, rfl, rfl, skipIf_beq_pc s _ _⟩
  | sneVk _ _ | sneVv _ _ => exact ⟨_, rfl, rfl, skipIf_bne_pc s _ _⟩
  | _ => exact ⟨_, rfl, rfl, rfl⟩

/-! ### What a step returns (40_step_cycle.md R110) -/

/-- Execute always answers a next state: a fault is one too, with STATUS set (log 1). -/
theorem exec_next (i : Instr) (s : State) : ∃ t, exec i s = .next t := by
  cases h : checkFault s i with
  | none =>
    obtain ⟨t, ht, -⟩ := exec_completes h
    exact ⟨t, ht⟩
  | some f => exact ⟨_, exec_of_checkFault h⟩

/-- A running machine's step answers a next state. -/
theorem step_running_next {s : State} (hrun : s.STATUS = .run) : ∃ t, step s = .next t := by
  rw [step_running hrun]
  cases fetchInstr s with
  | error f => exact ⟨_, rfl⟩
  | ok i =>
    obtain ⟨t, ht⟩ := exec_next i s
    exact ⟨t.endStep, congrArg completeStep ht⟩

theorem step_faulted {s : State} {f : Fault} (h : s.STATUS = .fault f) : step s = .fault f := by
  cases s; cases h; rfl

/-- A next state's result is CONTINUE or a fault, as its STATUS is. -/
theorem stepResult_next (t : State) :
    stepResult (.next t) = some .continue ∨ ∃ f, stepResult (.next t) = some (.fault f) := by
  cases h : t.STATUS with
  | run => exact .inl (by rw [stepResult, h]; rfl)
  | fault f => exact .inr ⟨f, by rw [stepResult, h]; rfl⟩

/-- Settles O15: a stopped machine answers its fault, a running one a next state. -/
theorem everyStepReturnsAResult : Obligations.EveryStepReturnsAResult := by
  intro s
  cases h : s.STATUS with
  | fault f => exact .inr ⟨f, congrArg stepResult (step_faulted h)⟩
  | run =>
    obtain ⟨t, ht⟩ := step_running_next h
    rw [ht]
    exact stepResult_next t

/-! ### Where pc ends (40_step_cycle.md R106) -/

/-- An instruction that ends in RUN has passed its check, so pc is where its kind puts it. -/
theorem exec_pc {i : Instr} {s t : State} (ht : exec i s = .next t) (hrun : t.STATUS = .run) :
    t.pc = nextPc s i := by
  cases h : checkFault s i with
  | none =>
    obtain ⟨u, hu, -, hpc⟩ := exec_completes h
    cases hu.symm.trans ht
    exact hpc
  | some f =>
    cases (exec_of_checkFault h).symm.trans ht
    cases hrun

/-- At a pc that can be fetched from, neither pc + 2 nor pc + 4 wraps (D19). -/
theorem fetchable_pc_add_toNat {pc : Word} (h : pc.toNat + 2 ≤ 4096) :
    (pc + 2).toNat = pc.toNat + 2 ∧ (pc + 4).toNat = pc.toNat + 4 := by
  constructor <;> bv_omega

/-- Settles O17: `exec_pc`, the 16-bit sums without wrap, and the fetch that checks the new pc. -/
theorem completedInstructionsSetPcByKind : Obligations.CompletedInstructionsSetPcByKind :=
  ⟨fun _ _ _ _ => exec_pc, fun _ => fetchable_pc_add_toNat, fun _ => raises_of_pc_outside⟩

end Sys2Proof.Machine
end

section
/-!
PROOFS. Control flow (41_control_flow.md): the call stack's two instructions, slot by slot, the jumps, and the skips
on a byte immediate.
-/

namespace Sys2Proof.Machine

/-! ### Words of one opcode family -/

/-- Mask 0xF000 fixes the opcode family, so what the decoder does on the family is the encoding of its row. -/
theorem encodes_of_family {op : BitVec 4} {build : Word → Instr}
    (h : ∀ w : Word, opField w = op → decode w = .ok (build w)) : Encodes (wordA op 0) 0xF000 build := by
  intro w hw
  rw [and_F000] at hw
  exact h w (by simpa using congrArg opField hw)

/-- Mask 0xFFFF fixes the whole word. -/
theorem encodes_of_word {m : Word} {i : Instr} (h : decode m = .ok i) : Encodes m 0xFFFF (fun _ => i) := by
  intro w hw
  have hwm : w = m := BitVec.and_allOnes.symm.trans hw
  rw [hwm, h]

/-! ### Steps of a fetched instruction -/

theorem step_fetched {s : State} {i : Instr} (hrun : s.STATUS = .run) (hi : fetchInstr s = .ok i) :
    step s = completeStep (exec i s) := by
  rw [step_running hrun, hi]

/-- Only a running machine's step answers a next state. -/
theorem running_of_step_next {s t : State} (h : step s = .next t) : s.STATUS = .run := by
  cases hs : s.STATUS with
  | run => rfl
  | fault f => cases (step_faulted hs).symm.trans h

theorem endStep_running {t : State} (h : t.STATUS = .run) : t.endStep = t.tick := by
  rw [State.endStep, h]

theorem endStep_faulted {t : State} {f : Fault} (h : t.STATUS = .fault f) : t.endStep = t := by
  rw [State.endStep, h]

/-- The end of a step leaves STATUS as execute left it. -/
theorem endStep_STATUS (t : State) : t.endStep.STATUS = t.STATUS := by
  cases h : t.STATUS with
  | run => rw [endStep_running h, tick_STATUS, h]
  | fault f => rw [endStep_faulted h, h]

/-- A step that completes is an execute that completes, and the tick. -/
theorem exec_of_completes {s t : State} {i : Instr} (hi : fetchInstr s = .ok i) (hc : Completes s t) :
    ∃ u, exec i s = .next u ∧ u.STATUS = .run ∧ t = u.tick := by
  obtain ⟨hstep, ht⟩ := hc
  obtain ⟨u, hu⟩ := exec_next i s
  rw [step_fetched (running_of_step_next hstep) hi, hu] at hstep
  injection hstep with hend
  have hrun : u.STATUS = .run := by rw [← endStep_STATUS, hend, ht]
  exact ⟨u, hu, hrun, by rw [← hend, endStep_running hrun]⟩

/-- A fetched instruction whose own check fails raises that fault, with no tick. -/
theorem raises_of_checkFault {s : State} {i : Instr} {f : Fault} (hrun : s.STATUS = .run)
    (hi : fetchInstr s = .ok i) (h : checkFault s i = some f) : Raises f s := by
  rw [Raises, step_fetched hrun hi, exec_of_checkFault h]; rfl

/-- A safe run of at least one step ends in RUN. -/
theorem safeRun_cons_ends_running {i : Instr} {is : List Instr} {s t : State} (h : SafeRun (i :: is) s t) :
    t.STATUS = .run := by
  induction is generalizing i s with
  | nil =>
    obtain ⟨⟩ | ⟨_, ⟨_, ht⟩, hrest⟩ := h
    cases hrest
    exact ht
  | cons i' is ih =>
    obtain ⟨⟩ | ⟨_, _, hrest⟩ := h
    exact ih hrest

/-! ### Jumps -/

theorem zext16_imm12_toNat (nnn : Imm12) : (zext16 nnn).toNat = nnn.toNat :=
  BitVec.toNat_setWidth_of_le (by decide)

/-- A step of a jump to itself is the tick alone. -/
theorem step_jp_self {nnn : Imm12} {s : State} (hrun : s.STATUS = .run) (hi : fetchInstr s = .ok (.jp nnn))
    (hpc : s.pc.toNat = nnn.toNat) : step s = .next s.tick := by
  have htarget : zext16 nnn = s.pc := BitVec.eq_of_toNat_eq (by rw [zext16_imm12_toNat, hpc])
  calc step s = .next (s.transfer (zext16 nnn)).endStep := step_fetched hrun hi
    _ = .next s.endStep := by rw [htarget]; rfl
    _ = .next s.tick := by rw [endStep_running hrun]

/-- Settles O31: a jump out of range is caught by the fetch, a jump to itself leaves the tick. -/
theorem jpSetsPc : Obligations.JpSetsPc := by
  refine ⟨encodes_of_family (op := 0x1) decode_op1, fun nnn s => ?_, fun _ _ => step_jp_self⟩
  refine ⟨s.transfer (zext16 nnn), rfl, zext16_imm12_toNat nnn, rfl, fun hnnn hrun => ?_⟩
  refine raises_of_pc_outside hrun ?_
  rw [transfer_pc, hnnn]
  decide

/-- The 16-bit sum of a byte and a 12-bit address does not wrap, so the mask is taken of the exact sum (C3). -/
theorem masked_sum_toNat (v : Byte) (nnn : Imm12) :
    ((zext16 v + zext16 nnn) &&& 0x0FFF).toNat = (v.toNat + nnn.toNat) % 4096 := by
  have hsum : (zext16 v + zext16 nnn).toNat = v.toNat + nnn.toNat := by bv_omega
  rw [BitVec.toNat_and, hsum]
  exact Nat.and_two_pow_sub_one_eq_mod _ 12

/-- Settles O33. -/
theorem jpV0SetsPcToTheMaskedSum : Obligations.JpV0SetsPcToTheMaskedSum :=
  ⟨encodes_of_family (op := 0xB) decode_opB, fun nnn _ => ⟨_, rfl, masked_sum_toNat _ nnn, rfl⟩⟩

/-! ### Skips on a byte immediate -/

/-- Settles O34: 4xkk's condition is the negation of 3xkk's. -/
theorem byteSkipsCompareWithTheImmediate : Obligations.ByteSkipsCompareWithTheImmediate := by
  refine ⟨encodes_of_family (op := 0x3) decode_op3, encodes_of_family (op := 0x4) decode_op4, fun x kk s => ?_⟩
  exact ⟨⟨_, rfl, rfl, skipIf_beq_pc s _ _⟩, ⟨_, rfl, rfl, (skipIf_bne_pc s _ _).trans (ite_not ..)⟩⟩

/-! ### The call stack, slot by slot -/

/-- 2nnn with j slots in use fills slot j. -/
theorem exec_call_slot {s : State} {j : Fin 16} (nnn : Imm12) (h : s.SP.val = j.val) :
    exec (.call nnn) s =
      .next { s with S := s.S.set j (s.pc + 2), SP := j.succ, pc := zext16 nnn } := by
  change execCall nnn s = _
  rw [execCall_room nnn (by omega)]
  simp only [h]
  rfl

/-- 00EE with j + 1 slots in use goes where slot j says, and clears nothing. -/
theorem exec_ret_slot {s : State} {j : Fin 16} (h : s.SP.val = j.val + 1) :
    exec .ret s = .next { s with SP := j.castSucc, pc := s.S[j] } := by
  have hslot : s.SP.val - 1 = j.val := by omega
  change execRet s = _
  rw [execRet_held (by omega) (by omega)]
  simp only [hslot]
  rfl

/-- A 00EE that finds the stack as a 2nnn left it returns behind that call. -/
theorem exec_ret_after_call {nnn : Imm12} {s t s' : State} (hroom : s.SP.val < 16)
    (hcall : exec (.call nnn) s = .next t) (hS : s'.S = t.S) (hSP : s'.SP = t.SP) :
    ∃ u, exec .ret s' = .next u ∧ u.pc = s.pc + 2 ∧ u.SP = s.SP := by
  obtain ⟨j, hj⟩ : ∃ j : Fin 16, s.SP.val = j.val := ⟨⟨s.SP.val, hroom⟩, rfl⟩
  cases (exec_call_slot nnn hj).symm.trans hcall
  refine ⟨_, exec_ret_slot (congrArg Fin.val hSP), ?_, Fin.ext hj.symm⟩
  change s'.S[j] = s.pc + 2
  rw [hS]
  exact Vector.getElem_set_self _

/-- Settles O30: `exec_ret_slot` for the pop, the fetch for a popped 0x1000, `exec_ret_after_call` for the return. -/
theorem retPopsThePcOrUnderflows : Obligations.RetPopsThePcOrUnderflows := by
  refine ⟨encodes_of_word rfl, fun s j hj => ?_, fun s => execRet_empty, fun _ _ _ _ => exec_ret_after_call⟩
  refine ⟨_, exec_ret_slot hj, rfl, rfl, rfl, rfl, fun htop hrun => raises_of_pc_outside hrun ?_⟩
  change 4096 < (s.S[j]).toNat + 2
  rw [htop]
  decide

/-! ### Runs of calls -/

/-- A call that completes uses one more slot. -/
theorem exec_call_SP {nnn : Imm12} {s t : State} (ht : exec (.call nnn) s = .next t) (hrun : t.STATUS = .run) :
    t.SP.val = s.SP.val + 1 := by
  by_cases hfull : s.SP.val = 16
  · cases (execCall_full nnn hfull).symm.trans ht
    cases hrun
  · have hroom : s.SP.val < 16 := by omega
    cases (exec_call_slot (j := ⟨s.SP.val, hroom⟩) nnn rfl).symm.trans ht
    rfl

/-- Completing calls use one slot each. -/
theorem safeRun_calls_SP {nnn : Imm12} {n : Nat} {s t : State}
    (h : SafeRun (List.replicate n (.call nnn)) s t) : t.SP.val = s.SP.val + n := by
  induction n generalizing s with
  | zero => cases h; rfl
  | succ n ih =>
    obtain ⟨⟩ | ⟨hi, hc, hrest⟩ := h
    obtain ⟨u, hu, hrun, rfl⟩ := exec_of_completes hi hc
    have hfirst := exec_call_SP hu hrun
    have hothers := ih hrest
    rw [tick_SP] at hothers
    omega

/-- Sixteen calls fill the stack, so the next one overflows. -/
theorem raises_of_seventeenth_call {nnn : Imm12} {s t : State} (hempty : s.SP.val = 0)
    (h : SafeRun (List.replicate 16 (.call nnn)) s t) (hi : fetchInstr t = .ok (.call nnn)) :
    Raises .stackOverflow t := by
  have hfull : t.SP.val = 16 := by rw [safeRun_calls_SP h, hempty]
  exact raises_of_checkFault (safeRun_cons_ends_running h) hi (if_pos hfull)

/-- Settles O32: `exec_call_slot` for the push, and `raises_of_seventeenth_call` for the run. -/
theorem callPushesTheReturnAddressOrOverflows : Obligations.CallPushesTheReturnAddressOrOverflows := by
  refine ⟨encodes_of_family (op := 0x2) decode_op2, fun nnn s j hj => ?_, fun nnn s => execCall_full nnn,
    fun _ _ _ => raises_of_seventeenth_call⟩
  exact ⟨_, exec_call_slot nnn hj, Vector.getElem_set_self _, rfl, zext16_imm12_toNat nnn, rfl⟩

end Sys2Proof.Machine
end

section
/-!
PROOFS. Register loads and the ALU (42_register_alu.md): the immediate forms and the register copy.
-/

namespace Sys2Proof.Machine

/-- Mask 0xF00F fixes the opcode family and the sub-operation. -/
theorem encodes_of_subop {op n : BitVec 4} {build : Word → Instr}
    (h : ∀ w : Word, opField w = op → nBits w = n → decode w = .ok (build w)) :
    Encodes (wordXY op 0 0 n) 0xF00F build := by
  intro w hw
  rw [and_F00F] at hw
  exact h w (by simpa using congrArg opField hw) (by simpa using congrArg nBits hw)

/-- Within opcode family 8 the low nibble alone decides. -/
theorem encodes_of_family8 {n : BitVec 4} {build : Word → Instr}
    (h : ∀ w : Word, nBits w = n → decode8 w = .ok (build w)) : Encodes (wordXY 0x8 0 0 n) 0xF00F build :=
  encodes_of_subop fun w hop hn => (decode_op8 w hop).trans (h w hn)

theorem decode8_n0 (w : Word) (h : nBits w = 0x0) : decode8 w = .ok (.ldVv (xField w) (yField w)) := by
  simp [decode8, h]

/-- What every form without a flag does: the result in V[x], pc past the word, VF only as destination. -/
theorem aluPlain_next {x : Reg} {b : Byte} {s t : State} (h : aluPlain x b s = .next t) :
    t.V[x] = b ∧ t.pc = s.pc + 2 ∧ (x ≠ VF → t.V[VF] = s.V[VF]) := by
  cases h
  exact ⟨setV_get_same s x b, rfl, fun hx => setV_get_other s b hx.symm⟩

/-- Settles O36: both forms are `aluPlain`, and 7xkk's 8-bit sum is the exact sum modulo 256. -/
theorem immediateFormsLoadAndAddWithoutFlag : Obligations.ImmediateFormsLoadAndAddWithoutFlag := by
  refine ⟨encodes_of_family (op := 0x6) decode_op6, encodes_of_family (op := 0x7) decode_op7, fun x kk s => ?_⟩
  obtain ⟨hsum, hpc, hVF⟩ := aluPlain_next (x := x) (b := s.V[x] + kk) (s := s) rfl
  exact ⟨⟨_, rfl, aluPlain_next rfl⟩, _, rfl, (congrArg BitVec.toNat hsum).trans (BitVec.toNat_add _ _), hpc, hVF⟩

/-- Writing back the byte a register holds changes nothing. -/
theorem setV_self (s : State) (x : Reg) : s.setV x s.V[x] = s :=
  congrArg (fun V => { s with V := V }) (Vector.set_getElem_self _)

/-- Settles O37: `aluPlain` again, and a register copied to itself is written back as it was. -/
theorem ldVvCopiesARegister : Obligations.LdVvCopiesARegister := by
  refine ⟨encodes_of_family8 (n := 0x0) decode8_n0, fun x y s => ?_⟩
  obtain ⟨hcopy, hpc, hVF⟩ := aluPlain_next (x := x) (b := s.V[y]) (s := s) rfl
  refine ⟨_, rfl, hcopy, hpc, hVF, ?_⟩
  rintro rfl
  exact congrArg State.advance (setV_self s x)

end Sys2Proof.Machine
end

section
/-!
PROOFS. The index register (43_index_memory.md): the loads of I, and the accesses that no longer fit at I = 0xFFF.
-/

namespace Sys2Proof.Machine

/-- Mask 0xF0FF fixes the opcode family and the low byte. -/
theorem encodes_of_lowByte {op : BitVec 4} {kk : Byte} {build : Word → Instr}
    (h : ∀ w : Word, opField w = op → kkField w = kk → decode w = .ok (build w)) :
    Encodes (wordXK op 0 kk) 0xF0FF build := by
  intro w hw
  rw [and_F0FF] at hw
  exact h w (by simpa using congrArg opField hw) (by simpa using congrArg kkField hw)

/-- Within opcode family F the low byte alone decides. -/
theorem encodes_of_familyF {kk : Byte} {build : Word → Instr}
    (h : ∀ w : Word, kkField w = kk → decodeF w = .ok (build w)) : Encodes (wordXK 0xF 0 kk) 0xF0FF build :=
  encodes_of_lowByte fun w hop hkk => (decode_opF w hop).trans (h w hkk)

theorem decodeF_kk29 (w : Word) (h : kkField w = 0x29) : decodeF w = .ok (.ldFV (xField w)) := by
  simp [decodeF, h]

/-- What every load of I does: the address in I, pc past the word, VF kept, and the same over any other memory. -/
theorem loadIndex_next {a : Word} {s t : State} (h : loadIndex a s = .next t) :
    t.I = a ∧ t.pc = s.pc + 2 ∧ t.V[VF] = s.V[VF] ∧
      ∀ m, loadIndex a { s with mem := m } = .next { t with mem := m } := by
  cases h
  exact ⟨rfl, rfl, rfl, fun _ => rfl⟩

/-- Five times a byte fits in 16 bits, so the glyph address is the exact product. -/
theorem glyphAddress_toNat (v : Byte) : (glyphAddress v).toNat = v.toNat * 5 := by
  rw [glyphAddress]
  bv_omega

/-- At I = 0xFFF one byte is left. -/
theorem index_top_outside {s : State} {ext : Nat} (hI : s.I = 0xFFF) (hext : 2 ≤ ext) :
    4096 < s.I.toNat + ext := by
  rw [hI]
  change 4096 < 4095 + ext
  omega

/-- Settles O43: both loads are `loadIndex` of an address that fits, and at the top each access of two bytes or more
fails its own check. -/
theorem indexLoadsTakeNnnAndTheGlyphAddress : Obligations.IndexLoadsTakeNnnAndTheGlyphAddress := by
  refine ⟨encodes_of_family (op := 0xA) decode_opA, encodes_of_familyF (kk := 0x29) decodeF_kk29,
    fun nnn x s => ⟨?_, ?_, fun htop => ⟨?_, fun y n hn => ?_, fun hx => ?_⟩⟩⟩
  · obtain ⟨hI, hrest⟩ := loadIndex_next (a := zext16 nnn) (s := s) rfl
    exact ⟨_, rfl, (congrArg BitVec.toNat hI).trans (zext16_imm12_toNat nnn), hrest⟩
  · obtain ⟨hI, hrest⟩ := loadIndex_next (a := glyphAddress s.V[x]) (s := s) rfl
    exact ⟨_, rfl, (congrArg BitVec.toNat hI).trans (glyphAddress_toNat s.V[x]), hrest⟩
  · exact exec_of_checkFault (if_pos (index_top_outside htop (by decide)))
  · exact exec_of_checkFault (if_pos (index_top_outside htop hn))
  · have hblock : 4096 < s.I.toNat + (x.val + 1) :=
      index_top_outside htop (by have := Fin.pos_of_ne_zero hx; omega)
    exact ⟨exec_of_checkFault (if_pos hblock), exec_of_checkFault (if_pos hblock)⟩

end Sys2Proof.Machine
end

section
/-!
PROOFS. Display (44_display.md): the clear.
-/

namespace Sys2Proof.Machine

/-- Settles O27: CLS answers with the all-off framebuffer and moves only pc besides, so VF stays. -/
theorem clsTurnsEveryPixelOff : Obligations.ClsTurnsEveryPixelOff :=
  ⟨encodes_of_word rfl, fun _ => ⟨_, rfl, allOff_get, rfl, rfl⟩⟩

end Sys2Proof.Machine
end

section
/-!
PROOFS. Decoding and encoding (30_encoding.md): every row of the opcode map decodes to its instruction, the two round
trips, the illegal spaces, and from these the agreement of the decoder with the match/mask map.
-/

namespace Sys2Proof.Machine

/-! ### What each row of the opcode map decodes to (30_encoding.md R74) -/

/-- Within opcode family E the low byte alone decides. -/
theorem encodes_of_familyE {kk : Byte} {build : Word → Instr}
    (h : ∀ w : Word, kkField w = kk → decodeE w = .ok (build w)) : Encodes (wordXK 0xE 0 kk) 0xF0FF build :=
  encodes_of_lowByte fun w hop hkk => (decode_opE w hop).trans (h w hkk)

theorem encodes_cls : Encodes 0x00E0 0xFFFF (fun _ => .cls) := encodes_of_word rfl

theorem encodes_ret : Encodes 0x00EE 0xFFFF (fun _ => .ret) := encodes_of_word rfl

theorem encodes_jp : Encodes 0x1000 0xF000 (fun w => .jp (nnnField w)) :=
  encodes_of_family (op := 0x1) decode_op1

theorem encodes_call : Encodes 0x2000 0xF000 (fun w => .call (nnnField w)) :=
  encodes_of_family (op := 0x2) decode_op2

theorem encodes_seVk : Encodes 0x3000 0xF000 (fun w => .seVk (xField w) (kkField w)) :=
  encodes_of_family (op := 0x3) decode_op3

theorem encodes_sneVk : Encodes 0x4000 0xF000 (fun w => .sneVk (xField w) (kkField w)) :=
  encodes_of_family (op := 0x4) decode_op4

theorem encodes_seVv : Encodes 0x5000 0xF00F (fun w => .seVv (xField w) (yField w)) :=
  encodes_of_subop (op := 0x5) (n := 0x0) fun w hop hn => (decode_op5 w hop).trans (if_pos hn)

theorem encodes_ldVk : Encodes 0x6000 0xF000 (fun w => .ldVk (xField w) (kkField w)) :=
  encodes_of_family (op := 0x6) decode_op6

theorem encodes_addVk : Encodes 0x7000 0xF000 (fun w => .addVk (xField w) (kkField w)) :=
  encodes_of_family (op := 0x7) decode_op7

theorem encodes_ldVv : Encodes 0x8000 0xF00F (fun w => .ldVv (xField w) (yField w)) :=
  encodes_of_family8 (n := 0x0) decode8_n0

theorem encodes_orVv : Encodes 0x8001 0xF00F (fun w => .orVv (xField w) (yField w)) :=
  encodes_of_family8 (n := 0x1) fun w hn => by simp [decode8, hn]

theorem encodes_andVv : Encodes 0x8002 0xF00F (fun w => .andVv (xField w) (yField w)) :=
  encodes_of_family8 (n := 0x2) fun w hn => by simp [decode8, hn]

theorem encodes_xorVv : Encodes 0x8003 0xF00F (fun w => .xorVv (xField w) (yField w)) :=
  encodes_of_family8 (n := 0x3) fun w hn => by simp [decode8, hn]

theorem encodes_addVv : Encodes 0x8004 0xF00F (fun w => .addVv (xField w) (yField w)) :=
  encodes_of_family8 (n := 0x4) fun w hn => by simp [decode8, hn]

theorem encodes_sub : Encodes 0x8005 0xF00F (fun w => .sub (xField w) (yField w)) :=
  encodes_of_family8 (n := 0x5) fun w hn => by simp [decode8, hn]

theorem encodes_shr : Encodes 0x8006 0xF00F (fun w => .shr (xField w) (yField w)) :=
  encodes_of_family8 (n := 0x6) fun w hn => by simp [decode8, hn]

theorem encodes_subn : Encodes 0x8007 0xF00F (fun w => .subn (xField w) (yField w)) :=
  encodes_of_family8 (n := 0x7) fun w hn => by simp [decode8, hn]

theorem encodes_shl : Encodes 0x800E 0xF00F (fun w => .shl (xField w) (yField w)) :=
  encodes_of_family8 (n := 0xE) fun w hn => by simp [decode8, hn]

theorem encodes_sneVv : Encodes 0x9000 0xF00F (fun w => .sneVv (xField w) (yField w)) :=
  encodes_of_subop (op := 0x9) (n := 0x0) fun w hop hn => (decode_op9 w hop).trans (if_pos hn)

theorem encodes_ldI : Encodes 0xA000 0xF000 (fun w => .ldI (nnnField w)) :=
  encodes_of_family (op := 0xA) decode_opA

theorem encodes_jpV0 : Encodes 0xB000 0xF000 (fun w => .jpV0 (nnnField w)) :=
  encodes_of_family (op := 0xB) decode_opB

theorem encodes_rnd : Encodes 0xC000 0xF000 (fun w => .rnd (xField w) (kkField w)) :=
  encodes_of_family (op := 0xC) decode_opC

theorem encodes_drw : Encodes 0xD000 0xF000 (fun w => .drw (xField w) (yField w) (nField w)) :=
  encodes_of_family (op := 0xD) decode_opD

theorem encodes_skp : Encodes 0xE09E 0xF0FF (fun w => .skp (xField w)) :=
  encodes_of_familyE (kk := 0x9E) fun w hkk => by simp [decodeE, hkk]

theorem encodes_sknp : Encodes 0xE0A1 0xF0FF (fun w => .sknp (xField w)) :=
  encodes_of_familyE (kk := 0xA1) fun w hkk => by simp [decodeE, hkk]

theorem encodes_ldVDt : Encodes 0xF007 0xF0FF (fun w => .ldVDt (xField w)) :=
  encodes_of_familyF (kk := 0x07) fun w hkk => by simp [decodeF, hkk]

theorem encodes_ldVKey : Encodes 0xF00A 0xF0FF (fun w => .ldVKey (xField w)) :=
  encodes_of_familyF (kk := 0x0A) fun w hkk => by simp [decodeF, hkk]

theorem encodes_ldDtV : Encodes 0xF015 0xF0FF (fun w => .ldDtV (xField w)) :=
  encodes_of_familyF (kk := 0x15) fun w hkk => by simp [decodeF, hkk]

theorem encodes_ldStV : Encodes 0xF018 0xF0FF (fun w => .ldStV (xField w)) :=
  encodes_of_familyF (kk := 0x18) fun w hkk => by simp [decodeF, hkk]

theorem encodes_addIV : Encodes 0xF01E 0xF0FF (fun w => .addIV (xField w)) :=
  encodes_of_familyF (kk := 0x1E) fun w hkk => by simp [decodeF, hkk]

theorem encodes_ldFV : Encodes 0xF029 0xF0FF (fun w => .ldFV (xField w)) :=
  encodes_of_familyF (kk := 0x29) decodeF_kk29

theorem encodes_ldBV : Encodes 0xF033 0xF0FF (fun w => .ldBV (xField w)) :=
  encodes_of_familyF (kk := 0x33) fun w hkk => by simp [decodeF, hkk]

theorem encodes_ldMemV : Encodes 0xF055 0xF0FF (fun w => .ldMemV (xField w)) :=
  encodes_of_familyF (kk := 0x55) fun w hkk => by simp [decodeF, hkk]

theorem encodes_ldVMem : Encodes 0xF065 0xF0FF (fun w => .ldVMem (xField w)) :=
  encodes_of_familyF (kk := 0x65) fun w hkk => by simp [decodeF, hkk]

/-! ### Decode after encode -/

/-- Settles O5: by the layout that `encode` uses, the fields of which are the operands; within families 8, E and F
the sub-operation then selects the row. -/
theorem decodeOfEncodeIsTheInstruction : Obligations.DecodeOfEncodeIsTheInstruction := by
  intro i
  cases i with
  | cls | ret => rfl
  | jp _ | call _ | ldI _ | jpV0 _ => simp [encode, decode]
  | seVk _ _ | sneVk _ _ | ldVk _ _ | addVk _ _ | rnd _ _ => simp [encode, decode]
  | seVv _ _ | sneVv _ _ | drw _ _ _ => simp [encode, decode]
  | ldVv _ _ | orVv _ _ | andVv _ _ | xorVv _ _ | addVv _ _ | sub _ _ | shr _ _ | subn _ _ | shl _ _ =>
    simp [encode, decode, decode8]
  | skp _ | sknp _ => simp [encode, decode, decodeE]
  | ldVDt _ | ldVKey _ | ldDtV _ | ldStV _ | addIV _ | ldFV _ | ldBV _ | ldMemV _ | ldVMem _ =>
    simp [encode, decode, decodeF]

/-! ### Encode after decode -/

theorem wordA_of_op {w : Word} {op : BitVec 4} (h : opField w = op) : wordA op (nnnField w) = w := by
  rw [← h, wordA_fields]

theorem wordXK_of_op {w : Word} {op : BitVec 4} (h : opField w = op) : wordXK op (xField w) (kkField w) = w := by
  rw [← h, wordXK_fields]

theorem wordXK_of_lowByte {w : Word} {op : BitVec 4} {kk : Byte} (h : opField w = op) (hkk : kkField w = kk) :
    wordXK op (xField w) kk = w := by
  rw [← hkk, wordXK_of_op h]

theorem wordXY_of_subop {w : Word} {op n : BitVec 4} (h : opField w = op) (hn : nBits w = n) :
    wordXY op (xField w) (yField w) n = w := by
  rw [← h, ← hn, wordXY_fields]

theorem encode_of_decode0 {w : Word} {i : Instr} (hi : decode0 w = .ok i) : encode i = w := by
  unfold decode0 at hi
  split at hi
  · next hw => cases hi; exact hw.symm
  · split at hi
    · next hw => cases hi; exact hw.symm
    · cases hi

theorem encode_of_decode8 {w : Word} {i : Instr} (h : opField w = 0x8) (hi : decode8 w = .ok i) :
    encode i = w := by
  unfold decode8 at hi
  split at hi
  case h_10 => cases hi
  all_goals next hn => cases hi; exact wordXY_of_subop h hn

theorem encode_of_decodeE {w : Word} {i : Instr} (h : opField w = 0xE) (hi : decodeE w = .ok i) :
    encode i = w := by
  unfold decodeE at hi
  split at hi
  case h_3 => cases hi
  all_goals next hkk => cases hi; exact wordXK_of_lowByte h hkk

theorem encode_of_decodeF {w : Word} {i : Instr} (h : opField w = 0xF) (hi : decodeF w = .ok i) :
    encode i = w := by
  unfold decodeF at hi
  split at hi
  case h_10 => cases hi
  all_goals next hkk => cases hi; exact wordXK_of_lowByte h hkk

/-- Families 5 and 9: the fixed low nibble is encoded back. -/
theorem encode_of_fixed_nibble {w : Word} {op : BitVec 4} {i j : Instr} {e : Illegal} (h : opField w = op)
    (hj : encode j = wordXY op (xField w) (yField w) 0)
    (hi : (if nBits w = 0 then Except.ok j else Except.error e) = .ok i) : encode i = w := by
  split at hi
  · next hn => cases hi; exact hj.trans (wordXY_of_subop h hn)
  · cases hi

/-- Settles O6: by the opcode family of the word, each laid out again from its own fields. -/
theorem encodeOfDecodeIsTheWord : Obligations.EncodeOfDecodeIsTheWord := by
  intro w i hi
  obtain h | h | h | h | h | h | h | h | h | h | h | h | h | h | h | h := nibble_cases (opField w)
  · exact encode_of_decode0 ((decode_op0 w h).symm.trans hi)
  · cases (decode_op1 w h).symm.trans hi; exact wordA_of_op h
  · cases (decode_op2 w h).symm.trans hi; exact wordA_of_op h
  · cases (decode_op3 w h).symm.trans hi; exact wordXK_of_op h
  · cases (decode_op4 w h).symm.trans hi; exact wordXK_of_op h
  · exact encode_of_fixed_nibble h rfl ((decode_op5 w h).symm.trans hi)
  · cases (decode_op6 w h).symm.trans hi; exact wordXK_of_op h
  · cases (decode_op7 w h).symm.trans hi; exact wordXK_of_op h
  · exact encode_of_decode8 h ((decode_op8 w h).symm.trans hi)
  · exact encode_of_fixed_nibble h rfl ((decode_op9 w h).symm.trans hi)
  · cases (decode_opA w h).symm.trans hi; exact wordA_of_op h
  · cases (decode_opB w h).symm.trans hi; exact wordA_of_op h
  · cases (decode_opC w h).symm.trans hi; exact wordXK_of_op h
  · cases (decode_opD w h).symm.trans hi; exact wordXY_of_subop h rfl
  · exact encode_of_decodeE h ((decode_opE w h).symm.trans hi)
  · exact encode_of_decodeF h ((decode_opF w h).symm.trans hi)

/-! ### The illegal spaces (30_encoding.md R76) -/

/-- The space of words that the table of 30_encoding.md R76 lists under the name. -/
def InIllegalSpace (w : Word) : Illegal → Prop
  | .family0 => opField w = 0x0 ∧ w ≠ 0x00E0 ∧ w ≠ 0x00EE
  | .family5 => opField w = 0x5 ∧ nBits w ≠ 0
  | .family8 => opField w = 0x8 ∧ (nBits w).toNat ∈ [8, 9, 0xA, 0xB, 0xC, 0xD, 0xF]
  | .family9 => opField w = 0x9 ∧ nBits w ≠ 0
  | .familyE => opField w = 0xE ∧ (kkField w).toNat ∉ [0x9E, 0xA1]
  | .familyF => opField w = 0xF ∧ (kkField w).toNat ∉ [0x07, 0x0A, 0x15, 0x18, 0x1E, 0x29, 0x33, 0x55, 0x65]
  | .truncated => False

theorem decode0_error_iff {w : Word} {e : Illegal} :
    decode0 w = .error e ↔ e = .family0 ∧ w ≠ 0x00E0 ∧ w ≠ 0x00EE := by
  unfold decode0
  split
  · next hw => simp [hw]
  · split
    · next hw => simp [hw]
    · next hcls hret => simpa [eq_comm (a := e)] using fun _ => ⟨hcls, hret⟩

theorem decode8_error_iff {w : Word} {e : Illegal} :
    decode8 w = .error e ↔ e = .family8 ∧ (nBits w).toNat ∈ [8, 9, 0xA, 0xB, 0xC, 0xD, 0xF] := by
  unfold decode8
  obtain h | h | h | h | h | h | h | h | h | h | h | h | h | h | h | h := nibble_cases (nBits w) <;>
    simp [h, eq_comm]

theorem decodeE_error_iff {w : Word} {e : Illegal} :
    decodeE w = .error e ↔ e = .familyE ∧ (kkField w).toNat ∉ [0x9E, 0xA1] := by
  unfold decodeE
  split
  case h_3 => simp_all [BitVec.toNat_eq, eq_comm]
  all_goals next hkk => simp [hkk]

theorem decodeF_error_iff {w : Word} {e : Illegal} :
    decodeF w = .error e ↔
      e = .familyF ∧ (kkField w).toNat ∉ [0x07, 0x0A, 0x15, 0x18, 0x1E, 0x29, 0x33, 0x55, 0x65] := by
  unfold decodeF
  split
  case h_10 => simp_all [BitVec.toNat_eq, eq_comm]
  all_goals next hkk => simp [hkk]

/-- Families 5 and 9: rejected exactly when the low nibble is not the fixed one. -/
theorem fixed_nibble_error_iff {w : Word} {j : Instr} {e e' : Illegal} :
    (if nBits w = 0 then Except.ok j else Except.error e') = .error e ↔ e = e' ∧ nBits w ≠ 0 := by
  split
  · next hn => simp [hn]
  · next hn => simpa [eq_comm (a := e)] using fun _ => hn

/-- A word is rejected under a name exactly when it is in the space of that name. -/
theorem decode_error_iff {w : Word} {e : Illegal} : decode w = .error e ↔ InIllegalSpace w e := by
  obtain h | h | h | h | h | h | h | h | h | h | h | h | h | h | h | h := nibble_cases (opField w)
  · rw [decode_op0 w h, decode0_error_iff]; cases e <;> simp [InIllegalSpace, h]
  · rw [decode_op1 w h]; cases e <;> simp [InIllegalSpace, h]
  · rw [decode_op2 w h]; cases e <;> simp [InIllegalSpace, h]
  · rw [decode_op3 w h]; cases e <;> simp [InIllegalSpace, h]
  · rw [decode_op4 w h]; cases e <;> simp [InIllegalSpace, h]
  · rw [decode_op5 w h, fixed_nibble_error_iff]; cases e <;> simp [InIllegalSpace, h]
  · rw [decode_op6 w h]; cases e <;> simp [InIllegalSpace, h]
  · rw [decode_op7 w h]; cases e <;> simp [InIllegalSpace, h]
  · rw [decode_op8 w h, decode8_error_iff]; cases e <;> simp [InIllegalSpace, h]
  · rw [decode_op9 w h, fixed_nibble_error_iff]; cases e <;> simp [InIllegalSpace, h]
  · rw [decode_opA w h]; cases e <;> simp [InIllegalSpace, h]
  · rw [decode_opB w h]; cases e <;> simp [InIllegalSpace, h]
  · rw [decode_opC w h]; cases e <;> simp [InIllegalSpace, h]
  · rw [decode_opD w h]; cases e <;> simp [InIllegalSpace, h]
  · rw [decode_opE w h, decodeE_error_iff]; cases e <;> simp [InIllegalSpace, h]
  · rw [decode_opF w h, decodeF_error_iff]; cases e <;> simp [InIllegalSpace, h]

/-- Settles O8: one clause of `decode_error_iff` per name. -/
theorem illegalWordsAreTheSixSpaces : Obligations.IllegalWordsAreTheSixSpaces := by
  intro w
  exact ⟨decode_error_iff, decode_error_iff, decode_error_iff, decode_error_iff, decode_error_iff, decode_error_iff,
    decode_error_iff.1⟩

/-! ### The decoder and the opcode map -/

/-- A word on the row decodes to an instruction with the row's mnemonic. -/
def RowDecodes (r : OpcodeRow) : Prop :=
  ∃ build, Encodes r.mtch r.mask build ∧ ∀ w, (build w).mnemonic = r.mnemonic

theorem row_decodes : ∀ r ∈ opcodeTable, RowDecodes r := by
  simp only [opcodeTable, rowsControl, rowsAlu, rowsIndexDisplayKeys, rowsF, List.cons_append, List.nil_append,
    List.forall_mem_cons]
  exact ⟨⟨_, encodes_cls, fun _ => rfl⟩, ⟨_, encodes_ret, fun _ => rfl⟩, ⟨_, encodes_jp, fun _ => rfl⟩,
    ⟨_, encodes_call, fun _ => rfl⟩, ⟨_, encodes_seVk, fun _ => rfl⟩, ⟨_, encodes_sneVk, fun _ => rfl⟩,
    ⟨_, encodes_seVv, fun _ => rfl⟩, ⟨_, encodes_ldVk, fun _ => rfl⟩, ⟨_, encodes_addVk, fun _ => rfl⟩,
    ⟨_, encodes_ldVv, fun _ => rfl⟩, ⟨_, encodes_orVv, fun _ => rfl⟩, ⟨_, encodes_andVv, fun _ => rfl⟩,
    ⟨_, encodes_xorVv, fun _ => rfl⟩, ⟨_, encodes_addVv, fun _ => rfl⟩, ⟨_, encodes_sub, fun _ => rfl⟩,
    ⟨_, encodes_shr, fun _ => rfl⟩, ⟨_, encodes_subn, fun _ => rfl⟩, ⟨_, encodes_shl, fun _ => rfl⟩,
    ⟨_, encodes_sneVv, fun _ => rfl⟩, ⟨_, encodes_ldI, fun _ => rfl⟩, ⟨_, encodes_jpV0, fun _ => rfl⟩,
    ⟨_, encodes_rnd, fun _ => rfl⟩, ⟨_, encodes_drw, fun _ => rfl⟩, ⟨_, encodes_skp, fun _ => rfl⟩,
    ⟨_, encodes_sknp, fun _ => rfl⟩, ⟨_, encodes_ldVDt, fun _ => rfl⟩, ⟨_, encodes_ldVKey, fun _ => rfl⟩,
    ⟨_, encodes_ldDtV, fun _ => rfl⟩, ⟨_, encodes_ldStV, fun _ => rfl⟩, ⟨_, encodes_addIV, fun _ => rfl⟩,
    ⟨_, encodes_ldFV, fun _ => rfl⟩, ⟨_, encodes_ldBV, fun _ => rfl⟩, ⟨_, encodes_ldMemV, fun _ => rfl⟩,
    ⟨_, encodes_ldVMem, fun _ => rfl⟩, List.forall_mem_nil _⟩

/-- A word that a row matches decodes, to an instruction with that row's mnemonic. -/
theorem decode_of_hits {r : OpcodeRow} {w : Word} (hr : r ∈ opcodeTable) (hw : r.hits w = true) :
    ∃ i, decode w = .ok i ∧ i.mnemonic = r.mnemonic := by
  obtain ⟨build, hbuild, hname⟩ := row_decodes r hr
  exact ⟨build w, hbuild w (beq_iff_eq.1 hw), hname w⟩

open Laws.RowOfWord in
/-- The word of every instruction is on the instruction's own row. -/
theorem word_on_own_row (i : Instr) : Statement i :=
  Instr.rec (motive := Statement) cls ret jp call seVk sneVk seVv ldVk addVk ldVv orVv andVv xorVv addVv sub shr subn
    shl sneVv ldI jpV0 rnd drw skp sknp ldVDt ldVKey ldDtV ldStV addIV ldFV ldBV ldMemV ldVMem i

/-- No two rows of the opcode map have the same mnemonic. -/
theorem mnemonics_nodup : (opcodeTable.map (·.mnemonic)).Nodup := by decide

/-- The mnemonics of the rows that match a word. -/
theorem mem_matching_mnemonics {w : Word} {m : String} :
    m ∈ (opcodeTable.filter (·.hits w)).map (·.mnemonic) ↔ ∃ i, decode w = .ok i ∧ i.mnemonic = m := by
  constructor
  · intro hm
    obtain ⟨r, hr, rfl⟩ := List.mem_map.1 hm
    obtain ⟨hmem, hhit⟩ := List.mem_filter.1 hr
    exact decode_of_hits hmem hhit
  · rintro ⟨i, hi, rfl⟩
    obtain ⟨r, hmem, hname, hhit⟩ := word_on_own_row i
    rw [encodeOfDecodeIsTheWord w i hi] at hhit
    exact List.mem_map.2 ⟨r, List.mem_filter.2 ⟨hmem, hhit⟩, hname⟩

/-- Settles O7: `mem_matching_mnemonics` says which mnemonics match, and none of them is there twice. -/
theorem decoderAgreesWithTheOpcodeMap : Obligations.DecoderAgreesWithTheOpcodeMap := by
  intro w
  cases hw : decode w with
  | error e =>
    refine List.eq_nil_iff_forall_not_mem.2 fun m hm => ?_
    obtain ⟨i, hi, -⟩ := mem_matching_mnemonics.1 hm
    cases hi.symm.trans hw
  | ok i =>
    have hnodup : ((opcodeTable.filter (·.hits w)).map (·.mnemonic)).Nodup :=
      mnemonics_nodup.sublist (List.filter_sublist.map _)
    refine List.perm_singleton.1 ((List.perm_ext_iff_of_nodup hnodup (List.nodup_singleton _)).2 fun m => ?_)
    rw [mem_matching_mnemonics, List.mem_singleton, hw]
    simp [eq_comm]

/-! ### The test vectors -/

/-- Settles O10: each word evaluated. -/
theorem sampleWordsDecodeAsListed : Obligations.SampleWordsDecodeAsListed :=
  ⟨rfl, rfl, rfl, rfl, rfl, rfl, rfl, rfl, rfl, rfl, rfl, rfl⟩

end Sys2Proof.Machine
end

section
/-!
PROOFS. What an instruction leaves (20_memory.md, Address spaces; 10_state.md, General registers): memory, the stack
slots, the timers and VF, each changed by the instructions listed for it only, and what no instruction reads.
-/

namespace Sys2Proof.Machine

/-! ### Fields an instruction leaves -/

/-- Only Fx33 and Fx55 write memory: Dxyn and Fx65 read it, every other instruction does not reach it. -/
theorem exec_mem {i : Instr} {s t : State} (ht : exec i s = .next t) (hldBV : ∀ x, i ≠ .ldBV x)
    (hldMemV : ∀ x, i ≠ .ldMemV x) : t.mem = s.mem := by
  have unreached (h : ({ mem := some s.mem } : Overlay).avoids i = true) : t.mem = s.mem :=
    (congrArg State.mem (exec_keeps_overlay h rfl ht)).symm
  cases i with
  | ldBV x => exact absurd rfl (hldBV x)
  | ldMemV x => exact absurd rfl (hldMemV x)
  | drw _ _ _ =>
    obtain ⟨_, hk⟩ | ⟨_, rfl⟩ := checkRange_next ht
    · cases hk; rfl
    · rfl
  | ldVMem _ =>
    obtain ⟨_, hk⟩ | ⟨_, rfl⟩ := checkRange_next ht
    · cases hk; rw [setBlockFrom_eq]; rfl
    · rfl
  | _ => exact unreached rfl

/-- Only 2nnn writes a stack slot: 00EE moves SP, every other instruction does not reach the stack. -/
theorem exec_S {i : Instr} {s t : State} (ht : exec i s = .next t) (hcall : ∀ nnn, i ≠ .call nnn) : t.S = s.S := by
  cases i with
  | call nnn => exact absurd rfl (hcall nnn)
  | ret =>
    by_cases h : s.SP.val = 0
    · cases (execRet_empty h).symm.trans ht; rfl
    · cases (execRet_held h (by omega)).symm.trans ht; rfl
  | _ => exact (congrArg State.S (exec_keeps_overlay (o := { S := some s.S }) rfl rfl ht)).symm

/-- Only Fx15 writes DT: Fx07 reads it, every other instruction does not reach it. -/
theorem exec_DT {i : Instr} {s t : State} (ht : exec i s = .next t) (hldDtV : ∀ x, i ≠ .ldDtV x) : t.DT = s.DT := by
  cases i with
  | ldDtV x => exact absurd rfl (hldDtV x)
  | ldVDt x => cases ht; rfl
  | _ => exact (congrArg State.DT (exec_keeps_overlay (o := { DT := some s.DT }) rfl rfl ht)).symm

/-- Only Fx18 reaches ST. -/
theorem exec_ST {i : Instr} {s t : State} (ht : exec i s = .next t) (hldStV : ∀ x, i ≠ .ldStV x) : t.ST = s.ST := by
  cases i with
  | ldStV x => exact absurd rfl (hldStV x)
  | _ => exact (congrArg State.ST (exec_keeps_overlay (o := { ST := some s.ST }) rfl rfl ht)).symm

/-! ### What no instruction reads -/

/-- Settles O20: the overlay of the count of draws, which Cxkk alone reaches. -/
theorem onlyRndReadsTheRandomByte : Obligations.OnlyRndReadsTheRandomByte := by
  intro i s d hrnd
  refine exec_overlay (o := { draws := some d }) ?_ s
  cases i with
  | rnd x kk => exact absurd rfl (hrnd x kk)
  | _ => rfl

/-- Settles O21: the overlay of ST, which Fx18 overwrites unread. -/
theorem noInstructionReadsTheSoundTimer : Obligations.NoInstructionReadsTheSoundTimer := by
  intro i s v
  cases i with
  | ldStV x => rfl
  | _ => exact exec_overlay (o := { ST := some v }) rfl s

/-- Settles O24: `exec_mem` for the writers, the overlay of memory for the readers. -/
theorem memoryIsReachedOnlyByItsAccesses : Obligations.MemoryIsReachedOnlyByItsAccesses := by
  refine ⟨fun i s t ht hldBV hldMemV a => by rw [exec_mem ht hldBV hldMemV],
    fun i s m hdrw hldVMem hldBV hldMemV => exec_overlay (o := { mem := some m }) ?_ s⟩
  cases i with
  | drw x y n => exact absurd rfl (hdrw x y n)
  | ldVMem x => exact absurd rfl (hldVMem x)
  | ldBV x => exact absurd rfl (hldBV x)
  | ldMemV x => exact absurd rfl (hldMemV x)
  | _ => rfl

/-! ### VF (10_state.md R24) -/

/-- A register after loading the x + 1 bytes at an address into V0..V[x]. -/
theorem setBlockFrom_readBytes_get (s : State) (m : Memory) (a : Nat) (x r : Reg) :
    (s.setBlockFrom 0 (m.readBytes a (x.val + 1))).V[r] = if r ≤ x then m.read (a + r.val) else s.V[r] := by
  rw [setBlockFrom_get _ _ _ (by rw [readBytes_length]; omega)]
  simp only [readBytes_length, readBytes_get, Nat.zero_le, true_and, Nat.zero_add, Nat.sub_zero, Nat.lt_succ_iff,
    Fin.val_fin_le, dite_eq_ite]

/-- Fx65 leaves the registers above V[x]. -/
theorem exec_ldVMem_above {x r : Reg} {s t : State} (ht : exec (.ldVMem x) s = .next t) (hr : x < r) :
    t.V[r] = s.V[r] := by
  obtain ⟨_, hk⟩ | ⟨_, rfl⟩ := checkRange_next ht
  · cases hk
    rw [advance_V, blockExtent, setBlockFrom_readBytes_get, if_neg (not_le.2 hr)]
  · rfl

/-- An instruction outside the lists of 10_state.md R24 leaves VF: it writes no register, or another one. -/
theorem exec_VF {i : Instr} {s t : State} (ht : exec i s = .next t) (hi : mayWriteVF i = false) :
    t.V[VF] = s.V[VF] := by
  cases i with
  | addVv _ _ | sub _ _ | shr _ _ | subn _ _ | shl _ _ | drw _ _ _ => cases hi
  | ldVk x _ | addVk x _ | ldVv x _ | orVv x _ | andVv x _ | xorVv x _ | rnd x _ | ldVDt x =>
    obtain ⟨-, -, hVF⟩ := aluPlain_next ht
    exact hVF (ne_of_beq_false hi)
  | ldVKey x =>
    change execLdVKey x s = _ at ht
    cases h : lowestPressed s.KEY with
    | none => cases (execLdVKey_none x h).symm.trans ht; rfl
    | some k =>
      cases (execLdVKey_some x h).symm.trans ht
      exact setV_get_other s _ (ne_of_beq_false hi).symm
  | ldVMem x => exact exec_ldVMem_above ht (Fin.lt_last_iff_ne_last.2 (ne_of_beq_false hi))
  | ret =>
    by_cases h : s.SP.val = 0
    · cases (execRet_empty h).symm.trans ht; rfl
    · cases (execRet_held h (by omega)).symm.trans ht; rfl
  | call nnn =>
    by_cases h : s.SP.val = 16
    · cases (execCall_full nnn h).symm.trans ht; rfl
    · cases (execCall_room nnn (by omega)).symm.trans ht; rfl
  | skp _ | sknp _ =>
    obtain ⟨_, _, rfl⟩ | ⟨_, rfl⟩ := skipOnKey_next ht <;> rfl
  | ldBV _ | ldMemV _ =>
    obtain ⟨_, rfl⟩ | ⟨_, rfl⟩ := storeAtIndex_next ht <;> rfl
  | _ => cases ht; rfl

/-- Settles O25: the contrapositive of `exec_VF`. -/
theorem vfIsWrittenOnlyAsFlagOrDestination : Obligations.VfIsWrittenOnlyAsFlagOrDestination := by
  intro i s t ht hne
  by_contra hi
  exact hne (exec_VF ht (Bool.eq_false_of_not_eq_true hi))

end Sys2Proof.Machine
end

section
/-!
PROOFS. The outcomes of a step (40_step_cycle.md R100, 60_exceptions.md R223), and the timers over steps
(45_timers_keys.md, 70_reset_and_hazards.md R258).
-/

namespace Sys2Proof.Machine

/-! ### Fetch and decode faults -/

theorem fetchInstr_illegal {s : State} {e : Illegal} (hpc : s.pc.toNat + 2 ≤ 4096)
    (he : decode (wordAtPc s) = .error e) : fetchInstr s = .error .illegalInstruction := by
  rw [wordAtPc_eq] at he
  rw [fetchInstr, fetchWord_inRange hpc]
  simp only [he]

/-- A fault of fetch or decode is raised precisely. -/
theorem raises_of_fetch_error {s : State} {f : Fault} (hrun : s.STATUS = .run) (h : fetchInstr s = .error f) :
    Raises f s := by
  rw [Raises, step_running hrun, h]; rfl

/-- Settles O13: the decode fault, which discards the step. -/
theorem illegalWordsRaiseIllegalInstruction : Obligations.IllegalWordsRaiseIllegalInstruction :=
  fun _ _ hrun hpc he => raises_of_fetch_error hrun (fetchInstr_illegal hpc he)

/-- Settles O57: the word at 0x200 is 0x0000, an illegal one of family 0. -/
theorem steppingWithoutALoadIsIllegal : Obligations.SteppingWithoutALoadIsIllegal :=
  illegalWordsRaiseIllegalInstruction State.reset .family0 rfl (by decide) rfl

/-! ### The fault of a step, by what fetch gives -/

theorem stepFault_of_fetch_error {s : State} {f : Fault} (h : fetchInstr s = .error f) : stepFault s = some f := by
  by_cases hpc : s.pc.toNat + 2 ≤ 4096
  · rw [stepFault, if_neg (by omega)]
    cases hw : decode (wordAtPc s) with
    | error e => cases (fetchInstr_illegal hpc hw).symm.trans h; rfl
    | ok i => cases (fetchInstr_decoded hpc hw).symm.trans h
  · rw [stepFault, if_pos (by omega)]
    cases (fetchInstr_outside (by omega)).symm.trans h
    rfl

theorem stepFault_of_fetched {s : State} {i : Instr} (h : fetchInstr s = .ok i) : stepFault s = checkFault s i := by
  by_cases hpc : s.pc.toNat + 2 ≤ 4096
  · rw [stepFault, if_neg (by omega)]
    cases hw : decode (wordAtPc s) with
    | error e => cases (fetchInstr_illegal hpc hw).symm.trans h
    | ok j => cases (fetchInstr_decoded hpc hw).symm.trans h; rfl
  · cases (fetchInstr_outside (by omega)).symm.trans h

/-- Everything a step from a running state does: the fault that `stepFault` names, precisely, or, when it names
none, the completed execute of the fetched instruction and the tick. -/
theorem step_running_cases {s : State} (hrun : s.STATUS = .run) :
    (∃ f, stepFault s = some f ∧ Raises f s) ∨
    (stepFault s = none ∧ ∃ i u, fetchInstr s = .ok i ∧ exec i s = .next u ∧ u.STATUS = .run ∧
      step s = .next u.tick) := by
  cases hi : fetchInstr s with
  | error f => exact .inl ⟨f, stepFault_of_fetch_error hi, raises_of_fetch_error hrun hi⟩
  | ok i =>
    rw [stepFault_of_fetched hi]
    cases hc : checkFault s i with
    | some f => exact .inl ⟨f, rfl, raises_of_checkFault hrun hi hc⟩
    | none =>
      obtain ⟨u, hu, hstatus, -⟩ := exec_completes hc
      have hurun : u.STATUS = .run := hstatus.trans hrun
      refine .inr ⟨rfl, i, u, rfl, hu, hurun, ?_⟩
      rw [step_fetched hrun hi, hu, completeStep, endStep_running hurun]

/-- Settles O16: the two cases of `step_running_cases`. -/
theorem stepsFaultExactlyOnTheirConditions : Obligations.StepsFaultExactlyOnTheirConditions := by
  intro s hrun
  obtain ⟨f, hf, hraises⟩ | ⟨hf, i, u, -, -, hurun, hstep⟩ := step_running_cases hrun
  · exact ⟨_, hraises, by rw [hf]⟩
  · exact ⟨_, hstep, by rw [hf]; exact hurun⟩

/-- Settles O11: the end of a step is the tick after a completed instruction and nothing after a fault. -/
theorem stepRunsTheDecodedInstruction : Obligations.StepRunsTheDecodedInstruction := by
  intro s i hrun hpc hi
  have hstep : step s = completeStep (exec i s) := step_decoded hrun hpc ((congrArg decode (wordAtPc_eq s)).trans hi)
  refine ⟨fun t ht htrun => ?_, fun t f ht htf => ?_⟩
  · rw [hstep, ht, completeStep, endStep_running htrun]; rfl
  · rw [hstep, ht, completeStep, endStep_faulted htf]

/-- Settles O14. -/
theorem stepAfterAFaultAnswersItAgain : Obligations.StepAfterAFaultAnswersItAgain :=
  fun _ _ h => ⟨step_faulted h, congrArg stepResult (step_faulted h)⟩

/-! ### The timers -/

/-- Settles O18: execute leaves a timer or writes it (`exec_DT`, `exec_ST`), and the tick counts it down. -/
theorem everyCompletedStepTicksBothTimers : Obligations.EveryCompletedStepTicksBothTimers := by
  intro s t i hi hc
  obtain ⟨u, hu, -, rfl⟩ := exec_of_completes hi hc
  rw [tick_DT, tick_ST, countDown_toNat, countDown_toNat]
  cases i with
  | ldDtV x => cases hu; exact ⟨rfl, rfl⟩
  | ldStV x => cases hu; exact ⟨rfl, rfl⟩
  | _ => exact ⟨by rw [exec_DT hu nofun], by rw [exec_ST hu nofun]⟩

theorem completes_DT {s t : State} {i : Instr} (hi : fetchInstr s = .ok i) (hc : Completes s t)
    (hldDtV : ∀ x, i ≠ .ldDtV x) : t.DT.toNat = s.DT.toNat - 1 := by
  obtain ⟨u, hu, -, rfl⟩ := exec_of_completes hi hc
  rw [tick_DT, countDown_toNat, exec_DT hu hldDtV]

theorem safeRun_append {is js : List Instr} {s t : State} (h : SafeRun (is ++ js) s t) :
    ∃ u, SafeRun is s u ∧ SafeRun js u t := by
  induction is generalizing s with
  | nil => exact ⟨s, .here s, h⟩
  | cons i is ih =>
    obtain ⟨⟩ | ⟨hi, hc, hrest⟩ := h
    obtain ⟨u, his, hjs⟩ := ih hrest
    exact ⟨u, .step hi hc his, hjs⟩

/-- Completing steps without Fx15 count the delay timer down once each. -/
theorem safeRun_DT {is : List Instr} {s t : State} (h : SafeRun is s t) (hldDtV : ∀ z, .ldDtV z ∉ is) :
    t.DT.toNat = s.DT.toNat - is.length := by
  induction h with
  | here s => rfl
  | step hi hc _ ih =>
    rw [ih fun z hz => hldDtV z (List.mem_cons_of_mem _ hz),
      completes_DT hi hc fun x hx => hldDtV x (hx ▸ List.mem_cons_self), List.length_cons]
    omega

/-- A completing Fx07 reads the delay timer as it was before the step. -/
theorem completes_ldVDt {x : Reg} {s t : State} (hi : fetchInstr s = .ok (.ldVDt x)) (hc : Completes s t) :
    t.V[x] = s.DT := by
  obtain ⟨u, hu, -, rfl⟩ := exec_of_completes hi hc
  obtain ⟨hx, -, -⟩ := aluPlain_next hu
  exact hx

/-- Settles O19: Fx15's own step counts once, each step between once (`safeRun_DT`), and the Fx07 reads the rest. -/
theorem delayTimerReadsItsValueLessTheStepsSince : Obligations.DelayTimerReadsItsValueLessTheStepsSince := by
  intro x y is s t h hldDtV
  obtain ⟨⟩ | ⟨hwrite, hc, hrest⟩ := h
  obtain ⟨u, hbetween, hread⟩ := safeRun_append hrest
  obtain ⟨⟩ | ⟨hy, hcy, hend⟩ := hread
  cases hend
  rw [completes_ldVDt hy hcy, safeRun_DT hbetween hldDtV,
    (everyCompletedStepTicksBothTimers _ _ _ hwrite hc).1, Nat.sub_sub, Nat.add_comm]

/-! ### The host's stand-in for a load -/

theorem tableWord_toNat (w : Word) : tableWord 16 w.toNat = w := by
  rw [tableWord, Nat.mod_eq_of_lt w.isLt, BitVec.ofNat_toNat, BitVec.setWidth_eq]

/-- The next fetch address has two bytes in memory. -/
theorem fetchablePc_toNat (s : State) : (fetchablePc s).toNat + 2 ≤ 4096 := by
  unfold fetchablePc
  split
  · next h => exact (inRange_iff _ _).1 h
  · decide

/-- The word placed at the next fetch address is the word at pc. -/
theorem wordAtPc_placeWord (s : State) (w : Word) : wordAtPc (placeWord s w) = w := by
  have hhigh : (placeWord s w).mem.read (fetchablePc s).toNat = highByte w :=
    read_writeBytes_stored s.mem _ [highByte w, lowByte w] 0 (by simp)
  have hlow : (placeWord s w).mem.read ((fetchablePc s).toNat + 1) = lowByte w :=
    read_writeBytes_stored s.mem _ [highByte w, lowByte w] 1 (by simp)
  rw [wordAtPc_eq]
  change wordOfBytes ((placeWord s w).mem.read (fetchablePc s).toNat)
    ((placeWord s w).mem.read ((fetchablePc s).toNat + 1)) = w
  rw [hhigh, hlow, wordOfBytes_bytes]

theorem decodeTableWord_of_decode {w : Word} {i : Instr} (hi : decode w = .ok i) :
    decodeTableWord 16 w.toNat = some i := by
  rw [decodeTableWord, tableWord_toNat, decodeBytes, wordOfBytes_bytes, hi]

/-- Settles O56: the placed word is at pc, in range, in a running state. -/
theorem placedWordIsWhatTheNextStepRuns : Obligations.PlacedWordIsWhatTheNextStepRuns := by
  intro s w i hi
  refine ⟨?_, decodeTableWord_of_decode hi⟩
  rw [State.withFetchWord, tableWord_toNat]
  exact step_decoded rfl (fetchablePc_toNat s) ((congrArg decode (wordAtPc_placeWord s w)).trans hi)

end Sys2Proof.Machine
end

section
/-!
PROOFS. The invariant (10_state.md R26, 20_memory.md R50): it holds at reset, and every step and every host event
keeps it. With it the ports of the host (10_state.md R40).
-/

namespace Sys2Proof.Machine

/-! ### Reset (10_state.md R34) -/

theorem font_length : font.length = 80 := rfl

/-- Above the font, reset leaves zeros. -/
theorem resetByte_above_font {a : Nat} (h : 0x50 ≤ a) : resetByte a = 0 :=
  List.getD_eq_default _ _ (by rw [font_length]; exact h)

theorem reset_hasResetValues : HasResetValues State.reset :=
  ⟨rfl, fun _ h _ => resetByte_above_font h, by decide, rfl, rfl, by decide, rfl, rfl, rfl, allOff_get, by decide, rfl⟩

/-- Settles O1: the reset port's state differs from the reset state in the count of draws only, which the table does
not list. -/
theorem resetGivesEveryFieldItsListedValue : Obligations.ResetGivesEveryFieldItsListedValue :=
  ⟨reset_hasResetValues, fun h => ⟨h.core.resetPort, rfl, reset_hasResetValues⟩⟩

/-- Settles O2. -/
theorem resetSatisfiesTheInvariant : Obligations.ResetSatisfiesTheInvariant where
  mem := reset_mem_wf
  pc := by decide
  slots := by decide

/-- The reset port's state meets the invariant, which does not look at the count of draws. -/
theorem resetPort_inv (s : State) : Inv s.resetPort :=
  ⟨resetSatisfiesTheInvariant.mem, resetSatisfiesTheInvariant.pc, resetSatisfiesTheInvariant.slots⟩

/-! ### A step keeps the invariant -/

/-- A store at I keeps memory canonical: the range check keeps it inside. -/
theorem storeAtIndex_wf {bs : List Byte} {s t : State} (hw : s.mem.wf = true) (ht : storeAtIndex bs s = .next t) :
    t.mem.wf = true := by
  obtain ⟨hrange, rfl⟩ | ⟨-, rfl⟩ := storeAtIndex_next ht
  · exact writeBytes_wf _ _ _ hw hrange
  · exact hw

theorem exec_mem_wf {i : Instr} {s t : State} (hw : s.mem.wf = true) (ht : exec i s = .next t) : t.mem.wf = true := by
  cases i with
  | ldBV _ | ldMemV _ => exact storeAtIndex_wf hw ht
  | _ => rw [exec_mem ht nofun nofun]; exact hw

/-- A pushed return address is at most 0x1000: the call was fetched at a pc of at most 0xFFE. -/
theorem exec_slots_le {i : Instr} {s t : State} (hslots : ∀ j : Fin 16, s.S[j].toNat ≤ 0x1000)
    (hpc : s.pc.toNat + 2 ≤ 4096) (ht : exec i s = .next t) (j : Fin 16) : t.S[j].toNat ≤ 0x1000 := by
  cases i with
  | call nnn =>
    by_cases h : s.SP.val = 16
    · cases (execCall_full nnn h).symm.trans ht; exact hslots j
    · have hroom : s.SP.val < 16 := by omega
      cases (execCall_room nnn hroom).symm.trans ht
      change ((s.S.set s.SP.val (s.pc + 2) hroom)[j.val]).toNat ≤ 0x1000
      rw [Vector.getElem_set]
      split
      · rw [(fetchable_pc_add_toNat hpc).1]; exact hpc
      · exact hslots j
  | _ => rw [exec_S ht nofun]; exact hslots j

/-- The masked sum of Bnnn is a 12-bit address. -/
theorem masked_toNat_le (a : Word) : (a &&& 0x0FFF).toNat ≤ 0xFFF := by
  rw [BitVec.toNat_and]; exact Nat.and_le_right

theorem ite_toNat_le {p : Prop} [Decidable p] {a b : Word} {n : Nat} (ha : a.toNat ≤ n) (hb : b.toNat ≤ n) :
    (if p then a else b).toNat ≤ n := by
  split <;> assumption

/-- Every new pc of 40_step_cycle.md R106 is at most 0x1002: a skip from the highest pc that can be fetched from. -/
theorem nextPc_le {s : State} (hslots : ∀ j : Fin 16, s.S[j].toNat ≤ 0x1000) (hpc : s.pc.toNat + 2 ≤ 4096)
    (i : Instr) : (nextPc s i).toNat ≤ 0x1002 := by
  obtain ⟨hadvance, hskip⟩ := fetchable_pc_add_toNat hpc
  have h0 : s.pc.toNat ≤ 0x1002 := by omega
  have h2 : (s.pc + 2).toNat ≤ 0x1002 := by omega
  have h4 : (s.pc + 4).toNat ≤ 0x1002 := by omega
  cases i with
  | jp nnn | call nnn =>
    change (zext16 nnn).toNat ≤ 0x1002
    rw [zext16_imm12_toNat]
    omega
  | jpV0 nnn => exact (masked_toNat_le _).trans (by decide)
  | ret => exact (hslots ⟨s.SP.val - 1, by omega⟩).trans (by decide)
  | seVk _ _ | sneVk _ _ | seVv _ _ | sneVv _ _ | skp _ | sknp _ => exact ite_toNat_le h4 h2
  | ldVKey _ => exact ite_toNat_le h2 h0
  | _ => exact h2

/-- A completed execute of a fetched instruction keeps the invariant. -/
theorem exec_keeps_inv {i : Instr} {s t : State} (hinv : Inv s) (hpc : s.pc.toNat + 2 ≤ 4096)
    (ht : exec i s = .next t) (hrun : t.STATUS = .run) : Inv t where
  mem := exec_mem_wf hinv.mem ht
  pc := by rw [exec_pc ht hrun]; exact nextPc_le hinv.slots hpc i
  slots := exec_slots_le hinv.slots hpc ht

/-- What can be fetched stands at a pc in range. -/
theorem fetched_pc {s : State} {i : Instr} (hi : fetchInstr s = .ok i) : s.pc.toNat + 2 ≤ 4096 := by
  by_contra h
  cases (fetchInstr_outside (by omega)).symm.trans hi

/-- The invariant does not look at STATUS. -/
theorem Inv.withStatus {s : State} (hinv : Inv s) (st : Status) : Inv { s with STATUS := st } :=
  ⟨hinv.mem, hinv.pc, hinv.slots⟩

theorem Inv.tick {s : State} (hinv : Inv s) : Inv s.tick := ⟨hinv.mem, hinv.pc, hinv.slots⟩

/-- Settles O3: a fault changes STATUS alone, and a step that completes is an execute that completes, and the tick. -/
theorem everyStepKeepsTheInvariant : Obligations.EveryStepKeepsTheInvariant := by
  intro s t hinv ht
  obtain ⟨f, -, hraises⟩ | ⟨-, i, u, hi, hu, hrun, hstep⟩ := step_running_cases (running_of_step_next ht)
  · cases hraises.symm.trans ht
    exact hinv.withStatus _
  · cases hstep.symm.trans ht
    exact (exec_keeps_inv hinv (fetched_pc hi) hu hrun).tick

/-! ### The host's events keep it -/

theorem closeLoad_next {r : Result} {h : Session} (hr : closeLoad r = .next h) :
    r = .next h.core ∧ h.loadOpen = false := by
  cases r <;> cases hr
  exact ⟨rfl, rfl⟩

/-- A load that answers a session was admitted to a running one, and is the effect of the load on its core. -/
theorem load_next {img : List Byte} {h h' : Session} (hload : h.load img = .next h') :
    h.core.loadImage img = .next h'.core := by
  unfold Session.load at hload
  split at hload
  · cases hload
  · split at hload
    · exact (closeLoad_next hload).1
    · cases hload

theorem imageFits_iff (img : List Byte) : imageFits img = true ↔ img.length ≤ 3584 :=
  decide_eq_true_iff

theorem loadImage_fits {img : List Byte} (s : State) (h : img.length ≤ 3584) :
    s.loadImage img = .next { s with mem := s.mem.writeBytes 0x200 img } := by
  rw [State.loadImage, if_pos ((imageFits_iff img).2 h)]

theorem loadImage_too_large {img : List Byte} (s : State) (h : 3584 < img.length) :
    s.loadImage img = .next { s with STATUS := .fault .programTooLarge } := by
  rw [State.loadImage, if_neg (by rw [imageFits_iff]; omega)]; rfl

/-- An image that fits stays inside memory, and one that does not writes nothing. -/
theorem loadImage_keeps_inv {img : List Byte} {s t : State} (hinv : Inv s) (ht : s.loadImage img = .next t) :
    Inv t := by
  by_cases hlen : img.length ≤ 3584
  · cases (loadImage_fits s hlen).symm.trans ht
    exact ⟨writeBytes_wf _ _ _ hinv.mem (by simp only [Config.memSize]; omega), hinv.pc, hinv.slots⟩
  · cases (loadImage_too_large s (by omega)).symm.trans ht
    exact hinv.withStatus _

theorem keyWrite_running {h : Session} (k : Key) (b : Bool) (hrun : h.core.STATUS = .run) :
    h.keyWrite k b = .next { h with core := h.core.keyWrite k b } := by
  rw [Session.keyWrite, hrun]

theorem keyWrite_faulted {h : Session} {f : Fault} (k : Key) (b : Bool) (hf : h.core.STATUS = .fault f) :
    h.keyWrite k b = .fault f := by
  rw [Session.keyWrite, hf]

/-- Settles O58: by the kind of the event. -/
theorem everyHostEventKeepsTheInvariant : Obligations.EveryHostEventKeepsTheInvariant := by
  intro h h' e hinv hact
  cases e with
  | reset => cases hact; exact resetPort_inv h.core
  | load img => exact loadImage_keeps_inv hinv (load_next hact)
  | keyWrite k b =>
    cases hst : h.core.STATUS with
    | fault f => cases (keyWrite_faulted k b hst).symm.trans hact
    | run =>
      cases (keyWrite_running k b hst).symm.trans hact
      exact ⟨hinv.mem, hinv.pc, hinv.slots⟩
  | step => exact everyStepKeepsTheInvariant _ _ hinv (closeLoad_next hact).1

/-- Settles O4: by induction on the events, from creation on. -/
theorem reachableSessionsMeetTheInvariant : Obligations.ReachableSessionsMeetTheInvariant := by
  intro h hreach
  induction hreach with
  | start => exact resetSatisfiesTheInvariant
  | act e _ hact ih => exact everyHostEventKeepsTheInvariant _ _ e ih hact

/-! ### Load, key_write and fb_read -/

theorem load_open {h : Session} (img : List Byte) (hrun : h.core.STATUS = .run) (hopen : h.loadOpen = true) :
    h.load img = closeLoad (h.core.loadImage img) := by
  rw [Session.load, hrun]; exact if_pos hopen

theorem load_closed {h : Session} (img : List Byte) (hrun : h.core.STATUS = .run) (hclosed : h.loadOpen = false) :
    h.load img = .refused .loadNotAdmitted := by
  rw [Session.load, hrun]; exact if_neg (by rw [hclosed]; decide)

/-- Settles O52: an admitted load is `loadImage`, byte by byte a block write at 0x200. -/
theorem loadCopiesTheImageOnceOrFaults : Obligations.LoadCopiesTheImageOnceOrFaults := by
  intro h img hrun
  refine ⟨fun hopen => ⟨fun hlen => ?_, fun hlen => ?_⟩, load_closed img hrun,
    fun _ hstep => (closeLoad_next hstep).2⟩
  · refine ⟨{ h.core with mem := h.core.mem.writeBytes 0x200 img }, ?_, fun j hj => ?_, fun a ha => ?_, rfl⟩
    · exact (load_open img hrun hopen).trans (congrArg closeLoad (loadImage_fits _ hlen))
    · exact read_writeBytes_stored _ _ _ j hj
    · exact read_writeBytes_other _ _ _ a ha
  · exact (load_open img hrun hopen).trans (congrArg closeLoad (loadImage_too_large _ hlen))

/-- Settles O53: `keyWrite_get` key by key. -/
theorem keyWriteSetsOneKey : Obligations.KeyWriteSetsOneKey := by
  intro h k b
  refine ⟨fun hrun => ⟨h.core.keyWrite k b, keyWrite_running k b hrun, ?_, fun j hj => ?_, rfl⟩,
    fun f => keyWrite_faulted k b⟩
  · rw [keyWrite_get, if_pos rfl]
  · rw [keyWrite_get, if_neg hj]

/-- fb_read is the framebuffer's rows put one behind the other. -/
theorem fbRead_eq (s : State) : s.fbRead = s.FB.flatten.toList := by
  simp [State.fbRead, Vector.flatten, Vector.toList, Function.comp_def]

/-- Settles O55: index r·64 + c of the flattened rows is column c of row r. -/
theorem fbReadIsRowMajor : Obligations.FbReadIsRowMajor := by
  intro s
  rw [fbRead_eq]
  refine ⟨Vector.length_toList, fun r c => ?_⟩
  have hrow : (r.val * 64 + c.val) / 64 = r.val := by omega
  have hcol : (r.val * 64 + c.val) % 64 = c.val := by omega
  rw [Vector.getElem?_toList, Vector.getElem?_eq_getElem (by omega), Vector.getElem_flatten]
  simp only [hrow, hcol]
  rfl
end Sys2Proof.Machine
end

section
/-!
PROOFS. Frames (00_scope.md R12): what each shared update of the state leaves, and the instructions whose frame stands
alone: the plain loads, jumps and skips, CLS, CALL and RET.
-/

namespace Sys2Proof.Machine

/-! ### The frame of each kind of update -/

section Updates
variable (s : State) (a : Word) {p : Footprint}

/-- A move of pc stays in every frame. -/
theorem frame_pc (p : Footprint) : Frame p s { s with pc := a } := by simp [Frame]

theorem frame_V {V : Vector Byte 16} (h : ∀ r : Reg, r ∉ p.regs → V[r] = s.V[r]) :
    Frame p s { s with V := V, pc := a } := by simpa [Frame] using h

theorem frame_I (hp : p.I = true) (I : Word) : Frame p s { s with I := I, pc := a } := by simp [Frame, hp]

theorem frame_stack (hp : p.stack = true) (S : Vector Word 16) (SP : Fin 17) :
    Frame p s { s with S := S, SP := SP, pc := a } := by simp [Frame, hp]

theorem frame_DT (hp : p.DT = true) (DT : Byte) : Frame p s { s with DT := DT, pc := a } := by simp [Frame, hp]

theorem frame_ST (hp : p.ST = true) (ST : Byte) : Frame p s { s with ST := ST, pc := a } := by simp [Frame, hp]

theorem frame_FB (hp : p.FB = true) (FB : Framebuffer) : Frame p s { s with FB := FB, pc := a } := by
  simp [Frame, hp]

theorem frame_draws (hp : p.draws = true) (draws : Nat) : Frame p s { s with draws := draws, pc := a } := by
  simp [Frame, hp]

theorem frame_writeBytes (base : Nat) (bs : List Byte) :
    Frame { base := base, len := bs.length } s { s with mem := s.mem.writeBytes base bs, pc := a } := by
  simpa [Frame] using read_writeBytes_other s.mem base bs

end Updates

/-- A write of a register that the footprint names stays in the frame. -/
theorem Frame.setV {p : Footprint} {s t : State} {x : Reg} (h : Frame p s t) (hx : x ∈ p.regs) (b : Byte) :
    Frame p s (t.setV x b) := by
  obtain ⟨hV, hrest⟩ := h
  exact ⟨fun r hr => (setV_get_other t b (ne_of_mem_of_not_mem hx hr).symm).trans (hV r hr), hrest⟩

theorem aluPlain_frame {p : Footprint} {x : Reg} {b : Byte} {s t : State} (hx : x ∈ p.regs)
    (ht : aluPlain x b s = .next t) : Frame p s t := by
  cases ht
  exact (frame_pc s (s.pc + 2) p).setV hx b

theorem aluFlag_frame {p : Footprint} {x : Reg} {b f : Byte} {s t : State} (hx : x ∈ p.regs) (hVF : VF ∈ p.regs)
    (ht : aluFlag x b f s = .next t) : Frame p s t := by
  cases ht
  exact ((frame_pc s (s.pc + 2) p).setV hx b).setV hVF f

theorem loadIndex_frame {b : Word} {s t : State} (ht : loadIndex b s = .next t) : Frame { I := true } s t := by
  cases ht
  exact frame_I s _ rfl b

/-! ### The plain instructions -/

/-- A call with room pushes into one slot, and leaves the others. -/
theorem exec_call_frame {s : State} (nnn : Imm12) (hroom : s.SP.val < 16) :
    ∃ t, exec (.call nnn) s = .next t ∧ Frame { stack := true } s t ∧
      ∀ k : Fin 16, k.val ≠ s.SP.val → t.S[k] = s.S[k] :=
  ⟨_, execCall_room nnn hroom, frame_stack s _ rfl _ _, fun _ hk => Vector.getElem_set_ne hroom _ hk.symm⟩

theorem exec_ret_frame {s : State} (hheld : s.SP.val ≠ 0) :
    ∃ t, exec .ret s = .next t ∧ Frame { stack := true } s t ∧ t.S = s.S :=
  ⟨_, execRet_held hheld (by omega), frame_stack s _ rfl _ _, rfl⟩

/-- Settles O26: each of the ten forms is one of the updates above. -/
theorem instructionsChangeOnlyTheirResults : Obligations.InstructionsChangeOnlyTheirResults := by
  intro x y kk nnn s
  refine ⟨?_, exec_call_frame nnn, exec_ret_frame⟩
  have hx : x ∈ ({ regs := [x] } : Footprint).regs := List.mem_singleton_self x
  simp only [List.forall_mem_cons]
  exact ⟨⟨_, rfl, frame_FB s _ rfl _⟩, ⟨_, rfl, frame_pc s _ _⟩, ⟨_, rfl, frame_pc s _ _⟩, ⟨_, rfl, frame_pc s _ _⟩,
    ⟨_, rfl, frame_pc s _ _⟩, ⟨_, rfl, aluPlain_frame hx rfl⟩, ⟨_, rfl, aluPlain_frame hx rfl⟩,
    ⟨_, rfl, aluPlain_frame hx rfl⟩, ⟨_, rfl, loadIndex_frame rfl⟩, ⟨_, rfl, loadIndex_frame rfl⟩,
    List.forall_mem_nil _⟩

/-- Settles O35: the skips move pc only, and the illegal low nibbles are those of `decode_error_iff`. -/
theorem registerSkipsCompareTwoRegisters : Obligations.RegisterSkipsCompareTwoRegisters := by
  refine ⟨encodes_seVv, encodes_sneVv, fun w hn =>
    ⟨fun hop => decode_error_iff.2 ⟨hop, hn⟩, fun hop => decode_error_iff.2 ⟨hop, hn⟩⟩, fun x y s => ⟨?_, ?_⟩⟩
  · exact ⟨_, rfl, frame_pc s _ _, skipIf_beq_pc s _ _⟩
  · exact ⟨_, rfl, frame_pc s _ _, (skipIf_bne_pc s _ _).trans (ite_not ..)⟩

end Sys2Proof.Machine
end

section
/-!
PROOFS. The ALU (42_register_alu.md): the logic operations, the operations with a flag, and RND.
-/

namespace Sys2Proof.Machine

/-! ### Without a flag -/

/-- Everything a form without a flag does: the result in V[x], pc past the word, and nothing else. -/
theorem aluPlain_effect (x : Reg) (b : Byte) (s : State) :
    ∃ t, aluPlain x b s = .next t ∧ t.V[x] = b ∧ t.pc = s.pc + 2 ∧ Frame { regs := [x] } s t :=
  ⟨_, rfl, setV_get_same s x b, rfl, aluPlain_frame (List.mem_singleton_self x) rfl⟩

/-- Settles O38: three uses of `aluPlain_effect`. -/
theorem logicOperationsWriteNoFlag : Obligations.LogicOperationsWriteNoFlag :=
  ⟨encodes_orVv, encodes_andVv, encodes_xorVv, fun x y s =>
    ⟨aluPlain_effect x (s.V[x] ||| s.V[y]) s, aluPlain_effect x (s.V[x] &&& s.V[y]) s,
      aluPlain_effect x (s.V[x] ^^^ s.V[y]) s⟩⟩

/-- Settles O42: `aluPlain` after the draw is counted. -/
theorem rndWritesTheFreeByteAndKk : Obligations.RndWritesTheFreeByteAndKk := by
  refine ⟨encodes_rnd, fun x kk s => ⟨_, rfl, setV_get_same s.drawn x _, rfl, rfl, ?_⟩⟩
  have hdrawn : Frame { regs := [x], draws := true } s s.drawn.advance := frame_draws s _ rfl _
  exact hdrawn.setV (List.mem_singleton_self x) _

/-! ### With a flag -/

/-- Everything a form with a flag does: the result in V[x] unless x = F, the flag in VF, pc past the word, and nothing
else (40_step_cycle.md R105). -/
theorem aluFlag_effect (x : Reg) (b f : Byte) (s : State) :
    ∃ t, aluFlag x b f s = .next t ∧ (x ≠ VF → t.V[x] = b) ∧ t.V[VF] = f ∧ t.pc = s.pc + 2 ∧
      Frame { regs := [x, VF] } s t :=
  ⟨_, rfl, setResultAndFlag_result s b f, setResultAndFlag_VF s x b f, rfl, aluFlag_frame (by simp) (by simp) rfl⟩

theorem flagByte_decide (p : Prop) [Decidable p] : flagByte (decide p) = if p then 1 else 0 := by
  simp [flagByte]

theorem flagByte_toNat (b : Bool) : (flagByte b).toNat = b.toNat := by
  cases b <;> rfl

theorem carryFlag_eq (a b : Byte) : carryFlag a b = if 255 < a.toNat + b.toNat then 1 else 0 :=
  flagByte_decide _

theorem notBorrowFlag_eq (a b : Byte) : notBorrowFlag a b = if b.toNat < a.toNat then 1 else 0 :=
  flagByte_decide (b < a)

theorem droppedLowFlag_toNat (a : Byte) : (droppedLowFlag a).toNat = a.toNat % 2 := by
  rw [droppedLowFlag, flagByte_toNat, BitVec.getLsbD, Nat.toNat_testBit, pow_zero, Nat.div_one]

theorem droppedHighFlag_toNat (a : Byte) : (droppedHighFlag a).toNat = a.toNat / 128 := by
  have := a.isLt
  rw [droppedHighFlag, flagByte_toNat, BitVec.getLsbD, Nat.toNat_testBit]
  omega

/-- The 8-bit difference is the exact one modulo 256. -/
theorem byte_sub_toNat (a b : Byte) : (a - b).toNat = (256 + a.toNat - b.toNat) % 256 := by
  bv_omega

/-- Settles O39: `aluFlag_effect` with the sum and the carry. -/
theorem addVvAddsWithCarryIntoVf : Obligations.AddVvAddsWithCarryIntoVf := by
  refine ⟨encodes_addVv, fun x y s => ?_⟩
  obtain ⟨t, ht, hx, hVF, hpc, hframe⟩ := aluFlag_effect x (s.V[x] + s.V[y]) (carryFlag s.V[x] s.V[y]) s
  refine ⟨t, ht, fun hne => ?_, hVF.trans (carryFlag_eq _ _), hpc, hframe⟩
  rw [hx hne, BitVec.toNat_add]

/-- A subtraction with its not-borrow, whatever register it goes to. -/
theorem aluFlag_sub (x : Reg) (a b : Byte) (s : State) :
    ∃ t, aluFlag x (a - b) (notBorrowFlag a b) s = .next t ∧
      (x ≠ VF → t.V[x].toNat = (256 + a.toNat - b.toNat) % 256) ∧
      t.V[VF] = (if b.toNat < a.toNat then 1 else 0) ∧ t.pc = s.pc + 2 ∧ Frame { regs := [x, VF] } s t := by
  obtain ⟨t, ht, hx, hVF, hpc, hframe⟩ := aluFlag_effect x (a - b) (notBorrowFlag a b) s
  refine ⟨t, ht, fun hne => ?_, hVF.trans (notBorrowFlag_eq a b), hpc, hframe⟩
  rw [hx hne, byte_sub_toNat]

/-- Settles O40: 8xy7 is 8xy5 with the operands exchanged. -/
theorem subtractionsWriteStrictNotBorrow : Obligations.SubtractionsWriteStrictNotBorrow :=
  ⟨encodes_sub, encodes_subn, fun x y s => ⟨aluFlag_sub x s.V[x] s.V[y] s, aluFlag_sub x s.V[y] s.V[x] s⟩⟩

/-- Settles O41: `aluFlag_effect` with the halved and the doubled byte; the meanings do not take y. -/
theorem shiftsDropOneBitIntoVf : Obligations.ShiftsDropOneBitIntoVf := by
  refine ⟨encodes_shr, encodes_shl, fun x y s => ⟨?_, ?_, fun _ => ⟨rfl, rfl⟩⟩⟩
  · obtain ⟨t, ht, hx, hVF, hpc, hframe⟩ := aluFlag_effect x (s.V[x] >>> 1) (droppedLowFlag s.V[x]) s
    refine ⟨t, ht, fun hne => ?_, ?_, hpc, hframe⟩
    · rw [hx hne, BitVec.toNat_ushiftRight, Nat.shiftRight_one]
    · rw [hVF, droppedLowFlag_toNat]
  · obtain ⟨t, ht, hx, hVF, hpc, hframe⟩ := aluFlag_effect x (s.V[x] <<< 1) (droppedHighFlag s.V[x]) s
    refine ⟨t, ht, fun hne => ?_, ?_, hpc, hframe⟩
    · rw [hx hne, BitVec.toNat_shiftLeft, Nat.shiftLeft_eq, pow_one]
    · rw [hVF, droppedHighFlag_toNat]

end Sys2Proof.Machine
end

section
/-!
PROOFS. Timers and keys (45_timers_keys.md): the moves of the timers, the wait for a key, and the skips on a key.
-/

namespace Sys2Proof.Machine

/-! ### Timers -/

/-- Settles O49: Fx07 is a load of V[x] with DT, the two others write one field. -/
theorem timerInstructionsMoveTheTimers : Obligations.TimerInstructionsMoveTheTimers :=
  ⟨encodes_ldVDt, encodes_ldDtV, encodes_ldStV, fun x s =>
    ⟨aluPlain_effect x s.DT s, ⟨_, rfl, rfl, rfl, frame_DT s _ rfl _⟩, ⟨_, rfl, rfl, rfl, frame_ST s _ rfl _⟩⟩⟩

/-! ### Keys -/

/-- A pressed key with no lower one pressed is the lowest pressed key. -/
theorem lowestPressed_eq_some {keys : Vector Bool 16} {k : Key} (hk : keys[k] = true)
    (hlow : ∀ j : Key, j < k → keys[j] = false) : lowestPressed keys = some k := by
  cases h : lowestPressed keys with
  | none => cases hk.symm.trans (lowestPressed_none h k)
  | some j =>
    obtain ⟨hj, hjlow⟩ := lowestPressed_some h
    obtain hlt | rfl | hgt := lt_trichotomy j k
    · cases hj.symm.trans (hlow j hlt)
    · rfl
    · cases hk.symm.trans (hjlow k hgt)

theorem lowestPressed_eq_none {keys : Vector Bool 16} (h : ∀ k : Key, keys[k] = false) :
    lowestPressed keys = none := by
  cases hk : lowestPressed keys with
  | none => rfl
  | some k => cases (lowestPressed_some hk).1.symm.trans (h k)

/-- Settles O50: with a lowest key, Fx0A is a load of V[x] with its index. -/
theorem ldVKeyTakesTheLowestPressedKeyOrWaits : Obligations.LdVKeyTakesTheLowestPressedKeyOrWaits := by
  refine ⟨encodes_ldVKey, fun x s => ⟨fun k hk hlow => ?_,
    fun hnone => execLdVKey_none x (lowestPressed_eq_none hnone)⟩⟩
  obtain ⟨t, ht, hx, hpc, hframe⟩ := aluPlain_effect x (BitVec.ofNat 8 k.val) s
  refine ⟨t, (execLdVKey_some x (lowestPressed_eq_some hk hlow)).trans ht, ?_, hpc, hframe⟩
  rw [hx, BitVec.toNat_ofNat, Nat.mod_eq_of_lt (by omega)]

/-- Settles O51: `skipOnKey_ok` with the key that V[x] names, and `skipOnKey_fault` above 15. -/
theorem keySkipsTestTheKeyInVxOrFault : Obligations.KeySkipsTestTheKeyInVxOrFault := by
  refine ⟨encodes_skp, encodes_sknp, fun x s => ⟨fun k hk => ⟨?_, ?_⟩,
    fun hv => ⟨skipOnKey_fault hv, skipOnKey_fault hv⟩⟩⟩
  · refine ⟨_, skipOnKey_ok hk, frame_pc s _ _, ?_⟩
    simp only [beq_true]
  · refine ⟨_, skipOnKey_ok hk, frame_pc s _ _, ?_⟩
    cases s.KEY[k] <;> rfl

end Sys2Proof.Machine
end

section
/-!
PROOFS. Memory transfers at I (43_index_memory.md): Fx1E, the stores of digits and of the block V0..V[x], and the load
of the block.
-/

namespace Sys2Proof.Machine

/-- Settles O44: one `loadIndex` of the 16-bit sum. -/
theorem addIVAddsModulo16Bits : Obligations.AddIVAddsModulo16Bits := by
  refine ⟨encodes_addIV, fun x s => ⟨_, rfl, ?_, rfl, loadIndex_frame rfl⟩⟩
  change (s.I + zext16 s.V[x]).toNat = (s.I.toNat + s.V[x].toNat) % 65536
  rw [BitVec.toNat_add, BitVec.toNat_setWidth_of_le (by decide)]

/-! ### Stores -/

/-- Everything a store at I in range does: byte j at I + j, pc past the word, and nothing else. -/
theorem storeAtIndex_effect {bs : List Byte} {s : State} (h : s.I.toNat + bs.length ≤ 4096) :
    ∃ t, storeAtIndex bs s = .next t ∧ (∀ j (hj : j < bs.length), t.mem.read (s.I.toNat + j) = bs[j]) ∧
      t.pc = s.pc + 2 ∧ Frame { base := s.I.toNat, len := bs.length } s t :=
  ⟨_, storeAtIndex_ok h, read_writeBytes_stored s.mem _ bs, rfl, frame_writeBytes s _ _ bs⟩

/-- Settles O45: the store of the three digits. -/
theorem ldBVStoresThreeDigitsOrFaults : Obligations.LdBVStoresThreeDigitsOrFaults := by
  refine ⟨encodes_ldBV, fun x s => ⟨fun h => ?_, fun h => storeAtIndex_fault h⟩⟩
  obtain ⟨t, ht, hdigits, hpc, hframe⟩ := storeAtIndex_effect (bs := decimalDigits s.V[x]) h
  refine ⟨t, ht, ?_, ?_, ?_, hpc, hframe⟩
  · exact congrArg BitVec.toNat (hdigits 0 (by simp [decimalDigits_length]))
  · exact congrArg BitVec.toNat (hdigits 1 (by simp [decimalDigits_length]))
  · exact congrArg BitVec.toNat (hdigits 2 (by simp [decimalDigits_length]))

/-- Everything Fx55 in range does. -/
theorem execLdMemV_effect {x : Reg} {s : State} (h : s.I.toNat + (x.val + 1) ≤ 4096) :
    ∃ t, exec (.ldMemV x) s = .next t ∧ (∀ r : Reg, r ≤ x → t.mem.read (s.I.toNat + r.val) = s.V[r]) ∧
      t.pc = s.pc + 2 ∧ Frame { base := s.I.toNat, len := x.val + 1 } s t := by
  rw [← block_length s x] at h
  obtain ⟨t, ht, hbytes, hpc, hframe⟩ := storeAtIndex_effect h
  rw [block_length] at hframe
  refine ⟨t, ht, fun r hr => ?_, hpc, hframe⟩
  have hj : r.val < (s.block x).length := by rw [block_length]; exact Nat.lt_succ_of_le hr
  exact (hbytes r.val hj).trans (block_get s x r.val hj r.isLt)

/-- Settles O46: the store of the block. -/
theorem ldMemVStoresTheBlockOrFaults : Obligations.LdMemVStoresTheBlockOrFaults :=
  ⟨encodes_ldMemV, fun _ _ => ⟨execLdMemV_effect, fun h => exec_of_checkFault (if_pos h)⟩⟩

/-! ### The load of the block -/

/-- Everything Fx65 in range does. -/
theorem execLdVMem_effect {x : Reg} {s : State} (h : s.I.toNat + (x.val + 1) ≤ 4096) :
    ∃ t, exec (.ldVMem x) s = .next t ∧ (∀ r : Reg, r ≤ x → t.V[r] = s.mem.read (s.I.toNat + r.val)) ∧
      t.pc = s.pc + 2 ∧ Frame { regs := (List.finRange 16).filter (· ≤ x) } s t := by
  refine ⟨_, execLdVMem_ok h, fun r hr => ?_, rfl, frame_V s _ fun r hr => ?_⟩
  · exact (setBlockFrom_readBytes_get s s.mem _ x r).trans (if_pos hr)
  · exact (setBlockFrom_readBytes_get s s.mem _ x r).trans (if_neg (by simpa using hr))

/-- Settles O47: the load of the block. -/
theorem ldVMemLoadsTheBlockOrFaults : Obligations.LdVMemLoadsTheBlockOrFaults :=
  ⟨encodes_ldVMem, fun _ _ => ⟨execLdVMem_effect, fun h => exec_of_checkFault (if_pos h)⟩⟩

/-- Settles O48: the load reads back what the store put there, since I is in the store's frame. -/
theorem loadAfterStoreRestoresTheBlock : Obligations.LoadAfterStoreRestoresTheBlock := by
  intro x s V h
  obtain ⟨t, ht, hstored, -, -, hI, -⟩ := execLdMemV_effect h
  have hIt : t.I = s.I := hI rfl
  obtain ⟨u, hu, hloaded, -⟩ := execLdVMem_effect (s := { t with V := V }) (hIt.symm ▸ h)
  refine ⟨t, u, ht, hu, fun r hr => ?_, fun r hr => exec_ldVMem_above hu hr⟩
  calc u.V[r] = t.mem.read (t.I.toNat + r.val) := hloaded r hr
    _ = s.V[r] := by rw [hIt]; exact hstored r hr

end Sys2Proof.Machine
end

section
/-!
PROOFS. Drawing (44_display.md R191 to R193): the sprite's pixels, the collision, and drawing twice.
-/

namespace Sys2Proof.Machine

/-! ### The sprite's pixels -/

theorem spriteCovers_pixel (X Y : Byte) (rows : List Byte) {j i : Nat} (hj : j < 32) (hi : i < 8) :
    spriteCovers X Y 0 rows (pixelRow Y j) (pixelColumn X i) = spriteBit (rows.getD j 0) i := by
  rw [spriteCovers, rowOffset_pixelRow Y hj, columnOffset_pixelColumn X (by omega)]
  simp [hi]

/-- A pixel that is at none of the offsets of the sprite is not covered. -/
theorem spriteCovers_outside {X Y : Byte} {rows : List Byte} (hlen : rows.length ≤ 32) {r : Fin 32} {c : Fin 64}
    (h : ∀ j i, j < rows.length → i < 8 → ¬ (r = pixelRow Y j ∧ c = pixelColumn X i)) :
    spriteCovers X Y 0 rows r c = false := by
  by_cases hj : rowOffset Y r < rows.length
  · by_cases hi : columnOffset X c < 8
    · exact absurd ⟨(pixelRow_eq_iff Y (by omega) r).2 rfl, (pixelColumn_eq_iff X (by omega) c).2 rfl⟩ (h _ _ hj hi)
    · simp [spriteCovers, hi]
  · rw [spriteCovers, Nat.sub_zero, List.getD_eq_default _ _ (not_lt.1 hj)]
    simp [spriteBit_zero]

/-! ### The draw of Dxyn -/

/-- Whether the sprite that Dxyn draws from `s` has a set bit at column offset i of row j. -/
def drawnBit (s : State) (j i : Nat) : Bool := (s.mem.read (s.I.toNat + j)).getLsbD (7 - i)

/-- The pixel under column offset i of row j of the sprite that Dxyn draws from `s`, in a framebuffer. -/
def pixelUnder (x y : Reg) (s : State) (fb : Framebuffer) (j i : Nat) : Bool :=
  fb.get (pixelRow s.V[y] j) (pixelColumn s.V[x] i)

theorem readBytes_getD (m : Memory) (a : Nat) {n j : Nat} (hj : j < n) :
    (m.readBytes a n).getD j 0 = m.read (a + j) := by
  have hlt : j < (m.readBytes a n).length := by rwa [readBytes_length]
  rw [List.getD_eq_getElem _ _ hlt, readBytes_get]

theorem drawnAt_get (x y : Reg) (n : Rows) (s : State) (r : Fin 32) (c : Fin 64) :
    (drawnAt x y n s).fb.get r c =
      (s.FB.get r c ^^ spriteCovers s.V[x] s.V[y] 0 (s.mem.readBytes s.I.toNat n.val) r c) :=
  drawRows_get _ _ _ _ _ (by rw [readBytes_length]; omega) r c

/-- Under the sprite, the set bits are toggled. -/
theorem drawnAt_under (x y : Reg) (s : State) {n : Rows} {j i : Nat} (hj : j < n.val) (hi : i < 8) :
    pixelUnder x y s (drawnAt x y n s).fb j i = (pixelUnder x y s s.FB j i ^^ drawnBit s j i) := by
  rw [pixelUnder, drawnAt_get, spriteCovers_pixel _ _ _ (by omega) hi, readBytes_getD _ _ hj]
  rfl

/-- Off the sprite, nothing changes. -/
theorem drawnAt_off {x y : Reg} {n : Rows} {s : State} {r : Fin 32} {c : Fin 64}
    (h : ∀ j i, j < n.val → i < 8 → ¬ (r = pixelRow s.V[y] j ∧ c = pixelColumn s.V[x] i)) :
    (drawnAt x y n s).fb.get r c = s.FB.get r c := by
  rw [drawnAt_get, spriteCovers_outside (by rw [readBytes_length]; omega) (by rwa [readBytes_length]), Bool.xor_false]

/-- The draw collides exactly when a set bit's pixel was on. -/
theorem drawnAt_hit (x y : Reg) (n : Rows) (s : State) :
    (drawnAt x y n s).hit = true ↔
      ∃ j i, j < n.val ∧ i < 8 ∧ drawnBit s j i = true ∧ pixelUnder x y s s.FB j i = true := by
  rw [drawnAt, drawRows_hit _ _ _ _ _ (by rw [readBytes_length]; omega)]
  simp only [Bool.false_eq_true, false_or, readBytes_length, readBytes_get, Nat.zero_add, exists_prop]
  rfl

theorem flagByte_eq_one_or_zero (b : Bool) : flagByte b = 1 ∨ flagByte b = 0 := by
  cases b
  · exact .inr rfl
  · exact .inl rfl

theorem flagByte_eq_one_iff (b : Bool) : flagByte b = 1 ↔ b = true := by
  cases b <;> decide

/-- Everything Dxyn in range does: the framebuffer and the flag of the draw, pc past the word, and nothing else. -/
theorem execDrw_effect (x y : Reg) {n : Rows} {s : State} (h : s.I.toNat + n.val ≤ 4096) :
    ∃ t, exec (.drw x y n) s = .next t ∧ t.FB = (drawnAt x y n s).fb ∧
      (t.V[VF] = 1 ∨ t.V[VF] = 0) ∧ (t.V[VF] = 1 ↔ (drawnAt x y n s).hit = true) ∧
      t.pc = s.pc + 2 ∧ Frame { regs := [VF], FB := true } s t := by
  refine ⟨_, execDrw_ok h, rfl, ?_, ?_, rfl, ?_⟩
  · exact (setV_get_same s VF _).symm ▸ flagByte_eq_one_or_zero _
  · exact (setV_get_same s VF _).symm ▸ flagByte_eq_one_iff _
  · have hFB : Frame { regs := [VF], FB := true } s { s with FB := (drawnAt x y n s).fb, pc := s.pc + 2 } :=
      frame_FB s _ rfl _
    exact hFB.setV (List.mem_singleton_self VF) _

/-- Settles O28: `execDrw_effect`, with the draw pixel by pixel. -/
theorem drwTogglesTheSpriteAndReportsCollision : Obligations.DrwTogglesTheSpriteAndReportsCollision := by
  refine ⟨encodes_drw, fun x y n s => ⟨fun h => ?_, execDrw_fault⟩⟩
  obtain ⟨t, ht, hFB, hflag, hVF, hpc, hframe⟩ := execDrw_effect x y h
  refine ⟨t, ht, fun j i hj hi => ?_, fun r c hoff => ?_, hflag, hVF.trans (drawnAt_hit x y n s), hpc, hframe⟩
  · rw [hFB]; exact drawnAt_under x y s hj hi
  · rw [hFB]; exact drawnAt_off hoff

/-! ### Drawing twice -/

theorem readBytes_congr {m m' : Memory} {a n : Nat} (h : ∀ j, j < n → m.read (a + j) = m'.read (a + j)) :
    m.readBytes a n = m'.readBytes a n := by
  refine List.ext_getElem (by rw [readBytes_length, readBytes_length]) fun j hj hj' => ?_
  rw [readBytes_get, readBytes_get]
  exact h j (by rwa [readBytes_length] at hj)

/-- Settles O29: the second draw covers the same pixels, so it toggles each back; it collides where the first draw
left a set bit's pixel on, which is where that pixel was off before. -/
theorem drawingTwiceRestoresTheFramebuffer : Obligations.DrawingTwiceRestoresTheFramebuffer := by
  intro x y n s t s' hrange ht hFB' hI hbytes hx hy
  obtain ⟨t₁, ht₁, hFB, -⟩ := execDrw_effect x y hrange
  cases ht₁.symm.trans ht
  obtain ⟨u, hu, huFB, hflag, hVF, -⟩ := execDrw_effect x y (s := s') (n := n) (by rw [hI]; exact hrange)
  have hrows : s'.mem.readBytes s'.I.toNat n.val = s.mem.readBytes s.I.toNat n.val := by
    rw [hI]; exact readBytes_congr hbytes
  have hbit : ∀ j i, j < n.val → drawnBit s' j i = drawnBit s j i := fun j i hj => by
    rw [drawnBit, hI, hbytes j hj, drawnBit]
  have hpixel : ∀ j i, j < n.val → i < 8 →
      pixelUnder x y s' s'.FB j i = (pixelUnder x y s s.FB j i ^^ drawnBit s j i) := fun j i hj hi => by
    rw [← drawnAt_under x y s hj hi, hFB', hFB, pixelUnder, pixelUnder, hx, hy]
  refine ⟨u, hu, framebuffer_ext fun r c => ?_, hflag, hVF.trans ((drawnAt_hit x y n s').trans ?_)⟩
  · rw [huFB, drawnAt_get, hFB', hFB, drawnAt_get, hrows, hx, hy, Bool.xor_assoc, Bool.xor_self, Bool.xor_false]
  · refine exists₂_congr fun j i => and_congr_right fun hj => and_congr_right fun hi => ?_
    rw [hbit j i hj, hpixel j i hj hi]
    exact and_congr_right fun hset => by rw [hset, Bool.xor_true, Bool.not_eq_true']; rfl

end Sys2Proof.Machine
end
